-- ==== Sys2Proof/Word.lean ====
section
/-! DEFINITION. The 64-bit word every register, operand and data beat of SRMT64 is made of (R7, R8). -/

namespace Sys2Proof

/-- An unsigned 64-bit word; bit 0 is the least significant bit (R7).
`+`, `-` and `*` wrap modulo 2^64, shifts are logical, comparisons are unsigned (R8). -/
abbrev Word := BitVec 64

/-- `U64_MAX` = 2^64 - 1 (R8). -/
abbrev u64Max : Word := 0xFFFFFFFFFFFFFFFF

end Sys2Proof
end

