-- ==== Sys2Proof/Config.lean ====
section
/-! DEFINITION. What an implementation of SRMT64 fixes (R6) and the values the spec leaves free (R140). -/

namespace Sys2Proof

/-- The parameters R6 leaves to the implementation: the number of downsampler channels and the presence of
the two extensions.
A machine state carries its own parameters, so a statement about every state holds for every block. -/
structure Params where
  /-- `NCH`, the number of channels. -/
  nch : Nat
  /-- `HAS_RANGE`: extension R, the commands `RANGE` and `RANGE2`. -/
  hasRange : Bool
  /-- `HAS_FILL`: extension F, the command `FILL`. -/
  hasFill : Bool
  deriving DecidableEq, Repr

/-- R6: `1 <= NCH <= 256`. -/
def Params.wf (p : Params) : Bool := decide (1 ≤ p.nch) && decide (p.nch ≤ 256)

/-- `BOOL_VIEW`: how a host reads a window as a truth value.
The spec leaves width and mapping open and assumes nothing about them (R140, decision D20), so this constant
has no body. See notes/assumptions/9.md. -/
opaque Config.boolView : Word → Bool

/-- `sizeof(bool)` as the byte width of `FILL` (R85).
SR gives a bool no width and the spec assumes none (R140, decision D20), so this constant has no body.
See notes/assumptions/9.md. -/
opaque Config.boolBytes : BitVec 4

end Sys2Proof
end

