-- ==== Sys2Proof/Machine/Constants.lean ====
section
/-! DEFINITION. The constants of the generator (R100) and the parameters of the block that `State.reset` builds. -/

namespace Sys2Proof.Machine

/-- `F`, the seed-expansion multiplier 6364136223846793005 (R100). -/
def seedMultiplier : Word := 0x5851F42D4C957F2D

/-- `A`, the twist constant (R100). -/
def twistMatrix : Word := 0xB5026F5AA96619E9

/-- `UPPER_MASK`: bits 63 to 31 (R100). -/
def upperMask : Word := 0xFFFFFFFF80000000

/-- `LOWER_MASK`: bits 30 to 0 (R100). -/
def lowerMask : Word := 0x7FFFFFFF

/-- `T1_MASK`, `T2_MASK`, `T3_MASK` of the temper (R100). -/
def temperMask1 : Word := 0x5555555555555555

@[inherit_doc temperMask1]
def temperMask2 : Word := 0x71D67FFFEDA60000

@[inherit_doc temperMask1]
def temperMask3 : Word := 0xFFF7EEE000000000

/-- DESIGN CHOICE (notes/assumptions/3.md): the parameters of the block that `State.reset` is.
R6 leaves `NCH` open from 1 to 256 and recommends both extensions; the largest `NCH` is taken, so that no
channel number a command word can hold is turned away for want of a channel.
No statement about the machine rests on this value: states carry their own parameters. -/
def buildParams : Params := { nch := 256, hasRange := true, hasFill := true }

end Sys2Proof.Machine
end

