-- ==== Sys2Proof/Syntax.lean ====
section
/-! DEFINITION. The command a host presents (R70) and the seven decoded commands (R76), one constructor per
row of spec/opcode_table.json. -/

namespace Sys2Proof

/-- A command as it stands on the command port: the 16-bit command word and two 64-bit operands (R70). -/
structure Command where
  cw : BitVec 16
  opa : Word
  opb : Word
  deriving DecidableEq, Repr

/-- A decoded command with the operands it uses (R75); an operand a command ignores is not kept. -/
inductive Instr where
  /-- `SEED s`: construct the generator from a seed (R101). -/
  | seed (seed : Word)
  /-- `NEXT64`: the next 64-bit output (R108). -/
  | next64
  /-- `RANGE m`: a value in `[0, max)` (R150). -/
  | range (max : Word)
  /-- `RANGE2 lo, hi`: a value in `[min, max)` (R154). -/
  | range2 (min max : Word)
  /-- `DSCFG c, w`: configure channel `c` with a byte width (R130).
  Every value of `w` can be written; the illegal ones are answered with an error, not refused (R73). -/
  | dscfg (c : BitVec 8) (w : BitVec 4)
  /-- `DSNEXT c`: the next window of channel `c` (R132). -/
  | dsnext (c : BitVec 8)
  /-- `FILL w, n`: `n` windows of `w` bytes (R170). -/
  | fill (w : BitVec 4) (n : Word)
  deriving DecidableEq, Repr

/-- The commands that draw from the generator (R183). -/
def Instr.draws : Instr → Bool
  | .seed _ => false
  | .next64 => true
  | .range _ => true
  | .range2 _ _ => true
  | .dscfg _ _ => false
  | .dsnext _ => true
  | .fill _ _ => true

end Sys2Proof
end

