-- ==== Sys2Proof/WellFormed.lean ====
section
/-! DEFINITION. Which decoded commands a block of given parameters has (R77 (c), (d), R79). -/

namespace Sys2Proof

/-- The command exists on a block with parameters `p`: its channel is one of the `NCH` channels (R74) and its
extension is present (R79). -/
def Instr.wellFormed (p : Params) : Instr → Bool
  | .seed _ => true
  | .next64 => true
  | .range _ => p.hasRange
  | .range2 _ _ => p.hasRange
  | .dscfg c _ => decide (c.toNat < p.nch)
  | .dsnext c => decide (c.toNat < p.nch)
  | .fill _ _ => p.hasFill

end Sys2Proof
end

