-- ==== Sys2Proof/Decode.lean ====
section
/-! DEFINITION. The opcode map (R76), the decoder (R83), total on every command and rejecting by name, and the
encoder (R84). -/

namespace Sys2Proof

/-- Why a command word is illegal, the four cases of R77.
Each is answered with status `ILLEGAL_COMMAND`; the cases differ in name only. -/
inductive Illegal where
  /-- R77 (a): opcode `0x0` or `0x8` to `0xF`. -/
  | reservedOpcode
  /-- R77 (b): a must-be-zero field is not zero. -/
  | fieldNotZero
  /-- R77 (c): `DSCFG` or `DSNEXT` with `ch >= NCH`. -/
  | noSuchChannel
  /-- R77 (d): the command's extension is absent (R79). -/
  | absentExtension
  deriving DecidableEq, Repr

/-- Field `op`, `cw[15:12]` (R71). -/
def opField (cw : BitVec 16) : BitVec 4 := cw.extractLsb' 12 4

/-- Field `wb`, `cw[11:8]` (R71). -/
def wbField (cw : BitVec 16) : BitVec 4 := cw.extractLsb' 8 4

/-- Field `ch`, `cw[7:0]` (R71). -/
def chField (cw : BitVec 16) : BitVec 8 := cw.extractLsb' 0 8

/-- The command the fields name, on a block that has every channel and both extensions: R83 without its tests
of the parameters. -/
def decodeFields (c : Command) : Except Illegal Instr :=
  let wb := wbField c.cw
  let ch := chField c.cw
  match (opField c.cw).toNat with
  | 0x1 => if wb = 0 ∧ ch = 0 then .ok (.seed c.opa) else .error .fieldNotZero
  | 0x2 => if wb = 0 ∧ ch = 0 then .ok .next64 else .error .fieldNotZero
  | 0x3 => if wb = 0 ∧ ch = 0 then .ok (.range c.opa) else .error .fieldNotZero
  | 0x4 => if wb = 0 ∧ ch = 0 then .ok (.range2 c.opa c.opb) else .error .fieldNotZero
  | 0x5 => .ok (.dscfg ch wb)
  | 0x6 => if wb = 0 then .ok (.dsnext ch) else .error .fieldNotZero
  | 0x7 => if ch = 0 then .ok (.fill wb c.opa) else .error .fieldNotZero
  | _ => .error .reservedOpcode

/-- R83's tests of the parameters: the channel exists (R74), the extension is present (R79). -/
def checkParams (p : Params) (i : Instr) : Except Illegal Instr :=
  match i with
  | .seed _ => .ok i
  | .next64 => .ok i
  | .range _ => if p.hasRange then .ok i else .error .absentExtension
  | .range2 _ _ => if p.hasRange then .ok i else .error .absentExtension
  | .dscfg c _ => if c.toNat < p.nch then .ok i else .error .noSuchChannel
  | .dsnext c => if c.toNat < p.nch then .ok i else .error .noSuchChannel
  | .fill _ _ => if p.hasFill then .ok i else .error .absentExtension

/-- The decoder of R83: total, and independent of the state of the block (R80). -/
def decode (p : Params) (c : Command) : Except Illegal Instr :=
  match decodeFields c with
  | .ok i => checkParams p i
  | .error e => .error e

/-- The command that encodes an instruction: the table of R84, with 0 in every ignored operand. -/
def encode : Instr → Command
  | .seed s => { cw := 0x1000, opa := s, opb := 0 }
  | .next64 => { cw := 0x2000, opa := 0, opb := 0 }
  | .range m => { cw := 0x3000, opa := m, opb := 0 }
  | .range2 lo hi => { cw := 0x4000, opa := lo, opb := hi }
  | .dscfg c w => { cw := 0x5000 ||| (w.setWidth 16 <<< 8) ||| c.setWidth 16, opa := 0, opb := 0 }
  | .dsnext c => { cw := 0x6000 ||| c.setWidth 16, opa := 0, opb := 0 }
  | .fill w n => { cw := 0x7000 ||| (w.setWidth 16 <<< 8), opa := n, opb := 0 }

/-- A row of the opcode map: a command word `cw` selects it when `cw & mask == pattern` (R76). -/
structure OpcodeRow where
  mnemonic : String
  pattern : BitVec 16
  mask : BitVec 16
  deriving DecidableEq, Repr

/-- The command word selects the row (R76). -/
def OpcodeRow.selects (r : OpcodeRow) (cw : BitVec 16) : Bool := cw &&& r.mask == r.pattern

/-- The opcode map as R76 prints it; the decoder is written from the field procedure of R83 instead, and the
two are compared in an obligation. -/
def opcodeTable : List OpcodeRow :=
  [ { mnemonic := "SEED", pattern := 0x1000, mask := 0xFFFF },
    { mnemonic := "NEXT64", pattern := 0x2000, mask := 0xFFFF },
    { mnemonic := "RANGE", pattern := 0x3000, mask := 0xFFFF },
    { mnemonic := "RANGE2", pattern := 0x4000, mask := 0xFFFF },
    { mnemonic := "DSCFG", pattern := 0x5000, mask := 0xF000 },
    { mnemonic := "DSNEXT", pattern := 0x6000, mask := 0xFF00 },
    { mnemonic := "FILL", pattern := 0x7000, mask := 0xF0FF } ]

/-- The row of the opcode map that stands for an instruction. -/
def Instr.mnemonic : Instr → String
  | .seed _ => "SEED"
  | .next64 => "NEXT64"
  | .range _ => "RANGE"
  | .range2 _ _ => "RANGE2"
  | .dscfg _ _ => "DSCFG"
  | .dsnext _ => "DSNEXT"
  | .fill _ _ => "FILL"

/-- The command whose bits are `w`, of which `nbits` are given and the rest are 0: bits 15 to 0 are the
command word as the table numbers them, and `opa` and `opb` count on from it (notes/assumptions/4.md). -/
def tableCommand (nbits w : Nat) : Command :=
  let v := w % 2 ^ nbits
  { cw := BitVec.ofNat 16 v, opa := BitVec.ofNat 64 (v / 2 ^ 16), opb := BitVec.ofNat 64 (v / 2 ^ 80) }

/-- The instruction the decoder reads from those bits, on the block `State.reset` is. -/
def decodeTableWord (nbits w : Nat) : Option Instr :=
  match decode Machine.buildParams (tableCommand nbits w) with
  | .ok i => some i
  | .error _ => none

end Sys2Proof
end

