-- ==== Sys2Proof/Machine/State.lean ====
section
/-! DEFINITION. The state of one SRMT64 block as plain data (R20), its two ports (R70), the reasons a step can
stop, and the state after reset (R36). -/

namespace Sys2Proof.Machine

/-- Status codes of a response (R82); codes 7 to 15 are never produced. -/
inductive Status where
  | ok
  | invalidArgument
  | notSeeded
  | notConfigured
  | illegalCommand
  | contractViolation
  | halted
  deriving DecidableEq, Repr

/-- A response: a status and a finite list of 64-bit data beats (R81). -/
structure Response where
  status : Status
  data : List Word
  deriving DecidableEq, Repr

/-- What the outside world does to the block: present a command on the command port, or apply reset (R70, R210). -/
inductive Input where
  | command (c : Command)
  | reset
  deriving DecidableEq, Repr

/-- The legal values of a channel's width register `ch[c].W` (R20, R30): 0, which means not configured, and
1, 2, 4 and 8 bytes. -/
inductive Width where
  | notConfigured
  | one
  | two
  | four
  | eight
  deriving DecidableEq, Repr

/-- One downsampler channel (R29): the registers `W`, `rem` and `sample`. -/
structure Channel where
  /-- `ch[c].W`, the width in bytes (R30). -/
  w : Width
  /-- `ch[c].rem`, the bytes of `sample` not yet emitted, 0 to 8 (R31). -/
  rem : Fin 9
  /-- `ch[c].sample`, the word the channel last drew (R34). -/
  sample : Word
  deriving DecidableEq, Repr

/-- The generator unit GEN (R20). -/
structure Gen where
  /-- `mt`, the state vector of 312 words (R21). -/
  mt : Vector Word 312
  /-- `idx`, the cursor, 0 to 312; larger values cannot be written down (R22). -/
  idx : Fin 313
  /-- `seeded`: `SEED` has completed since reset (R25). -/
  seeded : Bool
  deriving DecidableEq, Repr

/-- The state of one block.
`gen`, `halted` and `ch` are the registers of R20, all of them.
`NCH` is the number of entries of `ch`; with `hasRange` and `hasFill` it makes the parameters of the block
(R6), which no step changes.
`inputs` and `responses` are the two ports seen over time: what the host will present, in order, and every
response given so far, oldest first (notes/assumptions/2.md). -/
structure State where
  gen : Gen
  /-- `halted`: the block met a contract violation (R26). -/
  halted : Bool
  ch : List Channel
  hasRange : Bool
  hasFill : Bool
  inputs : List Input
  responses : List Response
  deriving DecidableEq, Repr

/-- Why a step can stop the model. Every fault of the block itself (R180) is an answer with a status code, so
a next state; it is not listed here. -/
inductive Fault where
  /-- Raised by `RANGE` and `RANGE2` when every further draw of the generator is rejected, so that the command
  never completes (R153).
  It stands for a command that runs for ever; the model's loop tries more draws than the generator has states
  before it says so.
  Safe: nothing is claimed of a state after it. -/
  | rejectsForever
  deriving DecidableEq, Repr

/-- Why the model has no meaning for a command. -/
inductive Refusal where
  /-- Raised by nobody: every command has its meaning.
  Safe: no state follows. -/
  | notModelled (mnemonic : String)
  deriving DecidableEq, Repr

/-- The outcome of one step or command. -/
abbrev Result := Host.Outcome State Fault Refusal

/-- The parameters the block was built with (R6). -/
def State.params (s : State) : Params :=
  { nch := s.ch.length, hasRange := s.hasRange, hasFill := s.hasFill }

/-- The generator unit after reset (R36): `seeded = 0`, `idx = 312`.
DESIGN CHOICE (notes/assumptions/1.md): the words of `mt`, which R36 leaves unspecified, are zero. -/
def Gen.atReset : Gen :=
  { mt := ⟨⟨List.replicate 312 0⟩, List.length_replicate⟩, idx := 312, seeded := false }

/-- A channel after reset (R36): `W = 0`, `rem = 0`.
DESIGN CHOICE (notes/assumptions/1.md): `sample`, which R36 leaves unspecified, is zero. -/
def Channel.atReset : Channel := { w := .notConfigured, rem := 0, sample := 0 }

/-- The block with parameters `p` right after reset, with nothing presented and nothing answered (R36, R210). -/
def State.resetOf (p : Params) : State :=
  { gen := Gen.atReset
    halted := false
    ch := List.replicate p.nch Channel.atReset
    hasRange := p.hasRange
    hasFill := p.hasFill
    inputs := []
    responses := [] }

/-- The machine right after reset. -/
def State.reset : State := State.resetOf buildParams

end Sys2Proof.Machine
end

