-- ==== Sys2Proof/Machine/Ops.lean ====
section
/-! DEFINITION. The named operations on the registers and ports, the internal operations of the generator
(`TWIST`, `TEMPER`, `DRAW`), and the one way a command ends in a fault (R189). -/

namespace Sys2Proof.Machine

/-! ## Register and port updates -/

/-- GEN replaced. -/
def State.withGen (g : Gen) (s : State) : State := { s with gen := g }

/-- `halted <- 1` (R182). -/
def State.withHalted (s : State) : State := { s with halted := true }

/-- The registers of channel `c`; an index `>= NCH` names no channel, is answered before any read (R77), and
reads as a channel after reset. -/
def State.channel (c : Nat) (s : State) : Channel := s.ch.getD c Channel.atReset

/-- The registers of channel `c` replaced, every other channel kept. -/
def State.withChannel (c : Nat) (k : Channel) (s : State) : State := { s with ch := s.ch.set c k }

/-- The remaining inputs replaced. -/
def State.withInputs (is : List Input) (s : State) : State := { s with inputs := is }

/-- The response port gives `r` after every earlier response (R70). -/
def State.answer (r : Response) (s : State) : State := { s with responses := s.responses ++ [r] }

/-- The host presents `c` as the next command, before whatever else it was to present. -/
def State.present (c : Command) (s : State) : State := { s with inputs := .command c :: s.inputs }

/-! ## How a command ends -/

/-- The number of a status on the response port (R82). -/
def Status.code : Status → BitVec 4
  | .ok => 0
  | .invalidArgument => 1
  | .notSeeded => 2
  | .notConfigured => 3
  | .illegalCommand => 4
  | .contractViolation => 5
  | .halted => 6

/-- `respond OK, data`: the command ends with its data beats (R10, R81). -/
def respond (data : List Word) (s : State) : Result := .next (s.answer { status := .ok, data := data })

/-- `raise f`: the command ends with the status of the fault and no data; nothing else changes (R10, R189). -/
def raise (f : Status) (s : State) : Result := .next (s.answer { status := f, data := [] })

/-- `halted <- 1; raise CONTRACT_VIOLATION` (R182). -/
def raiseContractViolation (s : State) : Result := raise .contractViolation s.withHalted

/-- Reset is applied (R210): every register takes its reset value; the parameters stay, and so do the inputs
still to come and the responses already given, which are not registers of the block. -/
def State.applyReset (s : State) : State :=
  { s with
    gen := Gen.atReset
    halted := false
    ch := List.replicate s.ch.length Channel.atReset }

/-! ## The generator unit -/

/-- `n` words of the seed expansion from index `i` on, where `p` is word `i`: each further word is
`F * (p ^ (p >> 62)) + index`, with `p` the word just before it (R101). -/
def seedWords : Nat → Nat → Word → List Word
  | 0, _, _ => []
  | n + 1, i, p => p :: seedWords n (i + 1) (seedMultiplier * (p ^^^ (p >>> 62)) + BitVec.ofNat 64 (i + 1))

theorem seedWords_length (n i : Nat) (p : Word) : (seedWords n i p).length = n := by
  induction n generalizing i p with
  | zero => rfl
  | succ n ih => simp [seedWords, ih]

/-- GEN after `SEED seed`: all 312 words from the seed, `idx = 312`, `seeded = 1` (R101). -/
def seedGen (seed : Word) : Gen :=
  { mt := ⟨⟨seedWords 312 0 seed⟩, seedWords_length 312 0 seed⟩, idx := 312, seeded := true }

/-- The mixing function of the twist: the upper bits of `u` with the lower bits of `l`, shifted right by one,
and exclusive-ored with `A` when the sum is odd (R105). -/
def mix (u l : Word) : Word :=
  let x := (u &&& upperMask) + (l &&& lowerMask)
  let xA := x >>> 1
  if x.getLsbD 0 then xA ^^^ twistMatrix else xA

/-- The words `n[0]` to `n[155]` of the twist, the first line of R104: `n[i] = o[i+156] ^ mix(o[i], o[i+1])`. -/
def twistLow (o : List Word) : List Word :=
  List.zipWith (· ^^^ ·) (o.drop 156) (List.zipWith mix o o.tail)

/-- The words `n[156]` to `n[310]` of the twist, the second line of R104:
`n[i] = n[i-156] ^ mix(o[i], o[i+1])`. -/
def twistHigh (o : List Word) : List Word :=
  List.zipWith (· ^^^ ·) (twistLow o) ((List.zipWith mix o o.tail).drop 156)

/-- The word `n[311]` of the twist, the third line of R104: `n[311] = n[155] ^ mix(o[311], n[0])`. -/
def twistLast (o : List Word) : Word :=
  (twistLow o).getD 155 0 ^^^ mix (o.getD 311 0) ((twistLow o).getD 0 0)

theorem twistLow_length (o : List Word) (h : o.length = 312) : (twistLow o).length = 156 := by
  simp only [twistLow, List.length_zipWith, List.length_drop, List.length_tail, h]
  decide

theorem twistHigh_length (o : List Word) (h : o.length = 312) : (twistHigh o).length = 155 := by
  simp only [twistHigh, List.length_zipWith, List.length_drop, List.length_tail, twistLow_length o h, h]
  decide

theorem twist_length (o : List Word) (h : o.length = 312) :
    (twistLow o ++ twistHigh o ++ [twistLast o]).length = 312 := by
  simp only [List.length_append, twistLow_length o h, twistHigh_length o h, List.length_singleton]

/-- `TWIST()` on the state vector, in the closed form of R104, with which R104 lets a model define it.
R103's pass in place is `twistInPlace`; that the two are one function is an obligation. -/
def twist (mt : Vector Word 312) : Vector Word 312 :=
  ⟨⟨twistLow mt.toList ++ twistHigh mt.toList ++ [twistLast mt.toList]⟩, twist_length mt.toList (by simp)⟩

/-- `mt[i mod 312]` (R51). -/
def wordAt (mt : Vector Word 312) (i : Nat) : Word := mt[i % 312]'(Nat.mod_lt i (by decide))

/-- The vector after steps 0 to `n - 1` of R103's pass: each step reads the vector as the earlier steps left
it and overwrites one word in place. -/
def twistPass (mt : Vector Word 312) : Nat → Vector Word 312
  | 0 => mt
  | i + 1 =>
    let v := twistPass mt i
    v.set (i % 312) (wordAt v (i + 156) ^^^ mix (wordAt v i) (wordAt v (i + 1))) (Nat.mod_lt i (by decide))

/-- `TWIST()` as R103 prints it: the whole pass, in place and in increasing order. -/
def twistInPlace (mt : Vector Word 312) : Vector Word 312 := twistPass mt 312

/-- `TEMPER(y)` (R106). -/
def temper (y0 : Word) : Word :=
  let y1 := y0 ^^^ ((y0 >>> 29) &&& temperMask1)
  let y2 := y1 ^^^ ((y1 <<< 17) &&& temperMask2)
  let y3 := y2 ^^^ ((y2 <<< 37) &&& temperMask3)
  y3 ^^^ (y3 >>> 43)

/-- The vector a draw reads and the index of the word it takes: the twist runs first when the cursor stands
at 312 (R107). -/
def wordToDraw (g : Gen) : Vector Word 312 × Fin 312 :=
  if h : g.idx.val < 312 then (g.mt, ⟨g.idx.val, h⟩) else (twist g.mt, 0)

/-- `DRAW()`: the next 64-bit output and GEN after it (R107). -/
def draw (g : Gen) : Word × Gen :=
  let (mt, i) := wordToDraw g
  (temper mt[i], { g with mt := mt, idx := i.succ })

end Sys2Proof.Machine
end

