-- ==== Sys2Proof/Machine/Flags.lean ====
section
/-! DEFINITION. The two status flags `halted` and `seeded` as the tests every command begins with, in the
order of R188. The block has no condition codes (R33). -/

namespace Sys2Proof.Machine

/-- Tests 1 and 2 of R188: a halted block answers `HALTED` to everything (R186); a command the block does not
have answers `ILLEGAL_COMMAND` (R185). -/
def commandGate (i : Instr) (body : State → Result) (s : State) : Result :=
  if s.halted then raise .halted s
  else if i.wellFormed s.params then body s
  else raise .illegalCommand s

/-- Test 3 of R188: a command that draws answers `NOT_SEEDED` until `SEED` has completed (R183). -/
def needSeeded (body : State → Result) (s : State) : Result :=
  if s.gen.seeded then body s else raise .notSeeded s

end Sys2Proof.Machine
end

