-- ==== Sys2Proof/Machine/Operands.lean ====
section
/-! DEFINITION. The operand forms: the byte-width field `wb` with its check (R73, R131), and the windows cut
from a 64-bit sample (R52, R53, R132). -/

namespace Sys2Proof.Machine

/-- The value of the width register in bytes; 0 stands for not configured (R30). -/
def Width.bytes : Width → Nat
  | .notConfigured => 0
  | .one => 1
  | .two => 2
  | .four => 4
  | .eight => 8

/-- The width a `wb` field asks for, or none where it is no legal width: SR's condition is
`8 mod w == 0`, which holds for 1, 2, 4 and 8 only, and width 0 is refused like any other bad width (R131,
decision D11). -/
def widthOfField (wb : BitVec 4) : Option Width :=
  match wb.toNat with
  | 1 => some .one
  | 2 => some .two
  | 4 => some .four
  | 8 => some .eight
  | _ => none

/-- The `wb` field that asks for a width: the integer byte width as it stands (R73). -/
def Width.field (w : Width) : BitVec 4 := BitVec.ofNat 4 w.bytes

/-- `zext_64((sample >> (rem * 8))[8*W-1 : 0])`: the `W` bytes of the sample that end `rem` bytes above its
bottom, as one beat (R53, R81, R132). -/
def window (w : Width) (rem : Nat) (sample : Word) : Word :=
  ((sample >>> (rem * 8)).setWidth (8 * w.bytes)).setWidth 64

/-- A channel just configured with width `w` (R130); `FILL` slices with one as its temporary registers (R170).
Its `sample` is not read, because `rem = 0` forces a draw first. -/
def Channel.configured (w : Width) (sample : Word) : Channel := { w := w, rem := 0, sample := sample }

/-- First half of a window: the channel refilled by a draw when no byte is left (R132). -/
def refill (k : Channel) (g : Gen) : Channel × Gen :=
  if k.rem = 0 then
    let (y, g') := draw g
    ({ k with rem := 8, sample := y }, g')
  else (k, g)

/-- The shift-and-slice logic that `DSNEXT` and `FILL` share (R132, R170): refill when `rem` is 0, then take
`W` from `rem`, then cut the window at the decremented `rem`.
It answers the beat, the channel after it and GEN after it. -/
def takeWindow (k : Channel) (g : Gen) : Word × Channel × Gen :=
  let (k', g') := refill k g
  let rem : Fin 9 := ⟨k'.rem.val - k'.w.bytes, Nat.lt_of_le_of_lt (Nat.sub_le _ _) k'.rem.isLt⟩
  (window k'.w rem.val k'.sample, { k' with rem := rem }, g')

end Sys2Proof.Machine
end

