-- ==== Sys2Proof/Machine/Downsampler.lean ====
section
/-! DEFINITION. The meanings of `DSCFG` (R130) and `DSNEXT` (R132). -/

namespace Sys2Proof.Machine

/-- `DSCFG c, wb` (R130): the channel gets its width and forgets its unconsumed bytes; it draws nothing and
needs no seed. -/
def execDscfg (c : BitVec 8) (wb : BitVec 4) (s : State) : Result :=
  commandGate (.dscfg c wb) (fun s =>
    match widthOfField wb with
    | none => raise .invalidArgument s
    | some w => respond [] (s.withChannel c.toNat (Channel.configured w (s.channel c.toNat).sample))) s

/-- `DSNEXT c` (R132): the next window of the channel. -/
def execDsnext (c : BitVec 8) (s : State) : Result :=
  commandGate (.dsnext c) (needSeeded fun s =>
    if (s.channel c.toNat).w = .notConfigured then raise .notConfigured s
    else
      let (v, k, g) := takeWindow (s.channel c.toNat) s.gen
      respond [v] ((s.withChannel c.toNat k).withGen g)) s

end Sys2Proof.Machine
end

