-- ==== Sys2Proof/Machine/Fill.lean ====
section
/-! DEFINITION. Extension F: the meaning of `FILL` (R170). -/

namespace Sys2Proof.Machine

/-- `n` windows in order, sliced with the registers `k`, and GEN after them: the loop of R170. -/
def takeWindows : Nat → Channel → Gen → List Word × Gen
  | 0, _, g => ([], g)
  | n + 1, k, g =>
    let (v, k', g') := takeWindow k g
    let (vs, g'') := takeWindows n k' g'
    (v :: vs, g'')

/-- `FILL wb, n` (R170): `n` windows cut with temporary registers, so that no channel is read or written and
the rest of the last draw is lost (R172); an illegal width halts the block before any draw (R171). -/
def execFill (wb : BitVec 4) (n : Word) (s : State) : Result :=
  commandGate (.fill wb n) (needSeeded fun s =>
    match widthOfField wb with
    | none => raiseContractViolation s
    | some w =>
      let (out, g) := takeWindows n.toNat (Channel.configured w 0) s.gen
      respond out (s.withGen g)) s

end Sys2Proof.Machine
end

