-- ==== Sys2Proof/Machine/Generator.lean ====
section
/-! DEFINITION. The meanings of `SEED` (R101) and `NEXT64` (R108). -/

namespace Sys2Proof.Machine

/-- `SEED seed` (R101): GEN constructed afresh from the seed; the downsampler is not touched (R214). -/
def execSeed (seed : Word) (s : State) : Result :=
  commandGate (.seed seed) (fun s => respond [] (s.withGen (seedGen seed))) s

/-- `NEXT64` (R108): one draw, returned. -/
def execNext64 (s : State) : Result :=
  commandGate .next64 (needSeeded fun s =>
    let (v, g) := draw s.gen
    respond [v] (s.withGen g)) s

end Sys2Proof.Machine
end

