-- ==== Sys2Proof/Machine/Range.lean ====
section
/-! DEFINITION. Extension R: the rejection loop and the meanings of `RANGE` (R150) and `RANGE2` (R154). -/

namespace Sys2Proof.Machine

/-- The rejection test `raw - rand > U64_MAX - max` with `rand = raw mod max` (R150). -/
def rejects (max raw : Word) : Bool := decide (raw - raw % max > u64Max - max)

/-- The loop of R150, at most `fuel` draws of it: the first draw that is not rejected gives the value
`raw mod max` and GEN after it; none where all of them are rejected. -/
def drawInRange : Nat → Word → Gen → Option (Word × Gen)
  | 0, _, _ => none
  | fuel + 1, max, g =>
    let (raw, g') := draw g
    if rejects max raw then drawInRange fuel max g' else some (raw % max, g')

/-- More draws than GEN has states (312 * 64 + 9 + 1 bits).
So a loop that has rejected this many draws has come back to a state it was in, and rejects for ever: the
limit caps no run that would complete (R153; notes/assumptions/5.md).
The cursor is added, and the definition marked irreducible, for the checker's sake alone: the limit is a literal
only where the state is one. -/
@[irreducible] def drawLimit (g : Gen) : Nat := 2 ^ 20000 + g.idx.val

/-- The loop of R150 to its end, then `respond OK` with the value found, offset by `base`. -/
def respondInRange (base max : Word) (s : State) : Result :=
  match drawInRange (drawLimit s.gen) max s.gen with
  | some (v, g) => respond [v + base] (s.withGen g)
  | none => .fault .rejectsForever

/-- `RANGE max` (R150): a value in `[0, max)`. -/
def execRange (max : Word) (s : State) : Result :=
  commandGate (.range max) (needSeeded fun s =>
    if max = 0 then raise .invalidArgument s else respondInRange 0 max s) s

/-- `RANGE2 min, max` (R154): `RANGE (max - min)`, offset by `min`; the comparison is unsigned. -/
def execRange2 (min max : Word) (s : State) : Result :=
  commandGate (.range2 min max) (needSeeded fun s =>
    if min ≥ max then raise .invalidArgument s else respondInRange min (max - min) s) s

end Sys2Proof.Machine
end

