-- ==== Sys2Proof/Machine/Dispatch.lean ====
section
/-! DEFINITION. One arm per command: which meaning it has. -/

namespace Sys2Proof.Machine

/-- The meaning of a decoded command. -/
def exec (i : Instr) (s : State) : Host.Outcome State Fault Refusal :=
  match i with
  | .seed seed => Sys2Proof.Machine.execSeed seed s
  | .next64 => Sys2Proof.Machine.execNext64 s
  | .range max => Sys2Proof.Machine.execRange max s
  | .range2 min max => Sys2Proof.Machine.execRange2 min max s
  | .dscfg c w => Sys2Proof.Machine.execDscfg c w s
  | .dsnext c => Sys2Proof.Machine.execDsnext c s
  | .fill w n => Sys2Proof.Machine.execFill w n s

end Sys2Proof.Machine
end

