-- ==== Sys2Proof/Machine/Run.lean ====
section
/-! DEFINITION. Taking the next input: a presented command is decoded and executed, reset is applied (R70,
R83, R210). -/

namespace Sys2Proof.Machine

/-- The next input and the state without it, or none where nothing is presented. -/
def takeInput (s : State) : Option (Input × State) :=
  match s.inputs with
  | [] => none
  | i :: rest => some (i, s.withInputs rest)

/-- `decode_and_execute` of R83: an illegal word answers `HALTED` on a halted block and `ILLEGAL_COMMAND`
otherwise (R188); every other word runs its command. -/
def runCommand (c : Command) (s : State) : Result :=
  match decode s.params c with
  | .ok i => exec i s
  | .error _ => if s.halted then raise .halted s else raise .illegalCommand s

/-- What the block does with one input. -/
def runInput (i : Input) (s : State) : Result :=
  match i with
  | .command c => runCommand c s
  | .reset => .next s.applyReset

end Sys2Proof.Machine
end

