-- ==== Sys2Proof/Machine/Views.lean ====
section
/-! DEFINITION. How a host reads a result: the typed views (R112, R136) and SR's public calls as commands (R85).
The encodings of the views are PRESUMED (K3, notes/assumptions/12.md).
No step of the block uses this file: a view is not a machine operation (R136), and no bit is changed (R135). -/

namespace Sys2Proof.Machine

/-- The value types of SR's public interface (R136). -/
inductive ViewType where
  | u8 | u16 | u32 | u64 | i8 | i16 | i32 | i64 | f32 | f64 | bool
  deriving DecidableEq, Repr

/-- The width of a type in bytes; SR gives none for `bool` (R140). -/
def ViewType.width : ViewType → Option Width
  | .u8 => some .one
  | .i8 => some .one
  | .u16 => some .two
  | .i16 => some .two
  | .u32 => some .four
  | .i32 => some .four
  | .f32 => some .four
  | .u64 => some .eight
  | .i64 => some .eight
  | .f64 => some .eight
  | .bool => none

/-- The fields of an IEEE-754 binary32 pattern (R136); nothing is rounded, flushed or canonicalised (R137). -/
structure Float32Bits where
  sign : BitVec 1
  exponent : BitVec 8
  fraction : BitVec 23
  deriving DecidableEq, Repr

/-- The fields of an IEEE-754 binary64 pattern (R136). -/
structure Float64Bits where
  sign : BitVec 1
  exponent : BitVec 11
  fraction : BitVec 52
  deriving DecidableEq, Repr

/-- What a host makes of a pattern. -/
inductive View where
  | unsigned (n : Nat)
  | signed (z : Int)
  | float32 (f : Float32Bits)
  | float64 (f : Float64Bits)
  | truth (b : Bool)
  deriving DecidableEq, Repr

/-- The low `8W` bits of a beat as an unsigned integer (R85, R136). -/
def unsignedValue (w : Width) (v : Word) : Nat := v.toNat % 2 ^ (8 * w.bytes)

/-- The low `8W` bits `p` of a beat as a two's-complement integer: `p` when `p[8W-1] == 0`, else `p - 2^(8W)`
(R85, R136). -/
def signedValue (w : Width) (v : Word) : Int :=
  if v.getLsbD (8 * w.bytes - 1) then (unsignedValue w v : Int) - 2 ^ (8 * w.bytes) else unsignedValue w v

/-- The low 32 bits of a beat as a binary32: sign `v[31]`, exponent `v[30:23]`, fraction `v[22:0]` (R136). -/
def float32Bits (v : Word) : Float32Bits :=
  { sign := v.extractLsb' 31 1, exponent := v.extractLsb' 23 8, fraction := v.extractLsb' 0 23 }

/-- `v` as a binary64: sign `v[63]`, exponent `v[62:52]`, fraction `v[51:0]` (R136). -/
def float64Bits (v : Word) : Float64Bits :=
  { sign := v.extractLsb' 63 1, exponent := v.extractLsb' 52 11, fraction := v.extractLsb' 0 52 }

/-- The view of a result beat as a type (R85, R136); the view of a `bool` is the open parameter `BOOL_VIEW`
(R140). -/
def view (t : ViewType) (v : Word) : View :=
  match t with
  | .u8 => .unsigned (unsignedValue .one v)
  | .u16 => .unsigned (unsignedValue .two v)
  | .u32 => .unsigned (unsignedValue .four v)
  | .u64 => .unsigned (unsignedValue .eight v)
  | .i8 => .signed (signedValue .one v)
  | .i16 => .signed (signedValue .two v)
  | .i32 => .signed (signedValue .four v)
  | .i64 => .signed (signedValue .eight v)
  | .f32 => .float32 (float32Bits v)
  | .f64 => .float64 (float64Bits v)
  | .bool => .truth (Config.boolView v)

/-- The widths of the channels that serve SR's narrow types (R85). -/
def Width.narrow : Width → Bool
  | .notConfigured => false
  | .one => true
  | .two => true
  | .four => true
  | .eight => false

/-- Whether a channel of width `w` may be the channel a host keeps for `t`, the `Tw` of R85: a narrow channel of
the width of the type, and any narrow channel for `bool`, whose width SR does not give (R140). -/
def ViewType.fits (t : ViewType) (w : Width) : Bool :=
  w.narrow && t.width.all (fun n => decide (w = n))

/-- SR's public calls (R85); `c` is the channel the host keeps for the type. -/
inductive Api where
  | init
  | next (t : ViewType) (c : BitVec 8)
  | nextRange (max : Word)
  | nextRange2 (min max : Word)
  | fillArray (t : ViewType) (length : Word)
  deriving DecidableEq, Repr

/-- The `DSCFG c, w` a host issues once to reserve a channel for a narrow type (R85).
None where a call needs no channel, and none for `bool`: SR does not say which narrow width its channel has. -/
def Api.setup : Api → Option Instr
  | .init => none
  | .next t c => (t.width.filter Width.narrow).map (fun w => .dscfg c w.field)
  | .nextRange _ => none
  | .nextRange2 _ _ => none
  | .fillArray _ _ => none

/-- The command that gives a call's result on the block as it stands (R85).
A call of a narrow type needs a channel of its width; where `c` has another width, or none, there is no command
until the host has configured it.
`init()` belongs to the registry and has none.
DESIGN CHOICE (notes/assumptions/9.md): an array of `bool` is filled with the open width `Config.boolBytes`. -/
def Api.expand (a : Api) (s : State) : Option Instr :=
  match a with
  | .init => none
  | .next t c =>
    if t.width = some .eight then some .next64
    else if t.fits (s.channel c.toNat).w then some (.dsnext c)
    else none
  | .nextRange max => some (.range max)
  | .nextRange2 min max => some (.range2 min max)
  | .fillArray t n => some (.fill (t.width.elim Config.boolBytes Width.field) n)

/-- The type a host reads a call's beats as, the third column of R85. -/
def Api.resultType : Api → Option ViewType
  | .init => none
  | .next t _ => some t
  | .nextRange _ => some .u64
  | .nextRange2 _ _ => some .u64
  | .fillArray t _ => some t

/-- What a call gives its caller from the response to its command: the beats of an OK response in order, each
read as the call's type; the slots of the array for `fill_array` (R85). -/
def Api.results (a : Api) (r : Response) : Option (List View) :=
  if r.status = .ok then a.resultType.map (fun t => r.data.map (view t)) else none

end Sys2Proof.Machine
end

