-- ==== Sys2Proof/Safety.lean ====
section
/-! DEFINITION. The vocabulary of the statements: the invariants of the block, draws by number, and what the
spec leaves unspecified. -/

namespace Sys2Proof.Machine

/-! ## Invariants at a command boundary -/

/-- R31: `0 <= rem <= 8 - W` and `rem mod W == 0` on a configured channel; a channel that was never configured
holds no byte. -/
def Channel.Inv (k : Channel) : Prop :=
  if k.w = .notConfigured then k.rem.val = 0
  else k.rem.val + k.w.bytes ≤ 8 ∧ k.rem.val % k.w.bytes = 0

/-- What holds of a block at every command boundary. -/
structure State.Inv (s : State) : Prop where
  /-- R6: `1 <= NCH <= 256`. -/
  params : s.params.wf = true
  /-- R31. -/
  channels : ∀ k ∈ s.ch, k.Inv
  /-- R183: with `seeded == 0` no channel can hold cached bytes. -/
  unseeded : s.gen.seeded = false → ∀ k ∈ s.ch, k.rem.val = 0
  /-- R188: `FILL` meets its contract check only on a seeded block, so only a seeded block halts. -/
  halted : s.halted = true → s.gen.seeded = true

/-! ## Draws by number -/

/-- GEN after `k` further draws (R107). -/
def genAfter : Nat → Gen → Gen
  | 0, g => g
  | k + 1, g => (draw (genAfter k g)).2

/-- The value of the draw that `i` further draws precede; draw `k` of R11 is `drawAt g (k - 1)`. -/
def drawAt (g : Gen) (i : Nat) : Word := (draw (genAfter i g)).1

/-- The first `k` further draws are rejected for `max` and the one after them is accepted (R153). -/
def AcceptedAfter (max : Word) (g : Gen) (k : Nat) : Prop :=
  (∀ j < k, rejects max (drawAt g j) = true) ∧ rejects max (drawAt g k) = false

/-- The rejection test of R150 on unbounded integers, with which R156 lets a model compute. -/
def RejectsInt (max raw : Int) : Prop := raw - raw % max > 2 ^ 64 - 1 - max

/-- `AcceptedAfter` with the test on unbounded integers (R156). -/
def AcceptedAfterInt (max : Int) (g : Gen) (k : Nat) : Prop :=
  (∀ j < k, RejectsInt max (drawAt g j).toNat) ∧ ¬ RejectsInt max (drawAt g k).toNat

/-- `q`, the largest multiple of `max` not above `U64_MAX` (R151). -/
def rangeThreshold (max : Nat) : Nat := (2 ^ 64 - 1) / max * max

/-- Window `j` of a sample counted from the top, `sample[63 - 8*W*j : 64 - 8*W*(j+1)]`, as a number (R133). -/
def windowNumber (w : Width) (sample : Word) (j : Nat) : Nat :=
  sample.toNat / 2 ^ (64 - 8 * w.bytes * (j + 1)) % 2 ^ (8 * w.bytes)

/-! ## Commands executed in a row -/

/-- The same command executed `n` times, up to the first fault of the model. -/
def execTimes (i : Instr) : Nat → State → Result
  | 0, s => .next s
  | n + 1, s =>
    match exec i s with
    | .next t => execTimes i n t
    | .fault f => .fault f
    | .refused r => .refused r

/-- The block can execute `i` as far as R188's tests 1 to 3 go: not halted, the command exists, and the
generator is seeded where the command draws. -/
def Ready (i : Instr) (s : State) : Prop :=
  s.halted = false ∧ i.wellFormed s.params = true ∧ (i.draws = true → s.gen.seeded = true)

/-- How many commands a list of inputs holds; the rest are resets. -/
def commandCount : List Input → Nat
  | [] => 0
  | .command _ :: rest => commandCount rest + 1
  | .reset :: rest => commandCount rest

/-! ## What the spec leaves unspecified -/

/-- Two channels that differ at most in a `sample` of which no byte is left to emit (R34, R36). -/
def Channel.SameBytes (k l : Channel) : Prop :=
  k.w = l.w ∧ k.rem = l.rem ∧ (k.rem ≠ 0 → k.sample = l.sample)

/-- Two states that differ at most in what R36 leaves unspecified: the words of `mt` before `SEED`, and each
`sample` of which no byte is left to emit. -/
structure SameSpecified (s u : State) : Prop where
  idx : s.gen.idx = u.gen.idx
  seeded : s.gen.seeded = u.gen.seeded
  mt : s.gen.seeded = true → s.gen.mt = u.gen.mt
  halted : s.halted = u.halted
  channels : List.Forall₂ Channel.SameBytes s.ch u.ch
  hasRange : s.hasRange = u.hasRange
  hasFill : s.hasFill = u.hasFill
  inputs : s.inputs = u.inputs
  responses : s.responses = u.responses

end Sys2Proof.Machine
end

