-- ==== Sys2Proof/Certificates/Slice0/Obligations.lean ====
section
/-! DEFINITION. The statements about the model, each from the rule of spec/ its docstring names. -/

open Sys2Proof Sys2Proof.Machine

/-! ## Encoding and decoding -/

/-- R76, R84: for every command a block has, with every operand at every value, decoding its encoding gives the
command back. -/
def Obligations.DecodeInvertsEncode : Prop :=
  ∀ (p : Params) (i : Instr), i.wellFormed p = true → decode p (encode i) = .ok i

/-- R84: a command word that decodes is the word its command encodes to, and the command is one the block has;
so no two command words mean one command. -/
def Obligations.DecodedWordIsTheEncodedWord : Prop :=
  ∀ (p : Params) (c : Command) (i : Instr), decode p c = .ok i →
    (encode i).cw = c.cw ∧ i.wellFormed p = true

/-- R75: which fields and operands each command uses, and that an operand it does not use has no effect. -/
def Obligations.OperandsAreUsedWholeOrIgnored : Prop :=
  ∀ (p : Params) (cw : BitVec 16) (a b : Word),
    match decode p ⟨cw, a, b⟩ with
    | .ok i =>
      (match i with
      | .seed seed => wbField cw = 0 ∧ chField cw = 0 ∧ seed = a ∧ ∀ b', decode p ⟨cw, a, b'⟩ = .ok i
      | .next64 => wbField cw = 0 ∧ chField cw = 0 ∧ ∀ a' b', decode p ⟨cw, a', b'⟩ = .ok i
      | .range max => wbField cw = 0 ∧ chField cw = 0 ∧ max = a ∧ ∀ b', decode p ⟨cw, a, b'⟩ = .ok i
      | .range2 min max => wbField cw = 0 ∧ chField cw = 0 ∧ min = a ∧ max = b
      | .dscfg c w => w = wbField cw ∧ c = chField cw ∧ ∀ a' b', decode p ⟨cw, a', b'⟩ = .ok i
      | .dsnext c => wbField cw = 0 ∧ c = chField cw ∧ ∀ a' b', decode p ⟨cw, a', b'⟩ = .ok i
      | .fill w n => w = wbField cw ∧ chField cw = 0 ∧ n = a ∧ ∀ b', decode p ⟨cw, a, b'⟩ = .ok i)
    | .error e => ∀ a' b', decode p ⟨cw, a', b'⟩ = .error e

/-- R76: the seven rows by pattern and mask. No word selects two rows; a word that decodes selects the row of
its command; and where the block has every channel and both extensions, a word that selects a row decodes. -/
def Obligations.OpcodeMapSelectsTheCommand : Prop :=
  opcodeTable.map (fun r => (r.mnemonic, r.pattern.toNat, r.mask.toNat)) =
      [("SEED", 0x1000, 0xFFFF), ("NEXT64", 0x2000, 0xFFFF), ("RANGE", 0x3000, 0xFFFF),
        ("RANGE2", 0x4000, 0xFFFF), ("DSCFG", 0x5000, 0xF000), ("DSNEXT", 0x6000, 0xFF00),
        ("FILL", 0x7000, 0xF0FF)] ∧
  (∀ cw : BitVec 16, ∀ r₁ ∈ opcodeTable, ∀ r₂ ∈ opcodeTable,
    r₁.selects cw = true → r₂.selects cw = true → r₁ = r₂) ∧
  (∀ (p : Params) (c : Command) (i : Instr), decode p c = .ok i →
    ∃ r ∈ opcodeTable, r.mnemonic = i.mnemonic ∧ c.cw &&& r.mask = r.pattern) ∧
  (∀ (p : Params) (c : Command), p.nch = 256 → p.hasRange = true → p.hasFill = true →
    ∀ r ∈ opcodeTable, c.cw &&& r.mask = r.pattern → ∃ i : Instr, decode p c = .ok i ∧ i.mnemonic = r.mnemonic)

/-- R77: a command word is illegal in exactly these cases, whatever its operands: (a) a reserved opcode; (b) a
must-be-zero field that is not zero; (c) a channel number `>= NCH`; (d) an absent extension. An illegal word on
a block that is not halted is answered `ILLEGAL_COMMAND`, with no other change but that the command is taken. -/
def Obligations.IllegalWordsAreExactlyTheseFour : Prop :=
  (∀ (p : Params) (c : Command),
    (∃ e, decode p c = .error e) ↔
      (let op := (c.cw.extractLsb' 12 4).toNat
       let wb := (c.cw.extractLsb' 8 4).toNat
       let ch := (c.cw.extractLsb' 0 8).toNat
       (op = 0 ∨ 8 ≤ op) ∨
       ((op = 1 ∨ op = 2 ∨ op = 3 ∨ op = 4) ∧ (wb ≠ 0 ∨ ch ≠ 0)) ∨ (op = 6 ∧ wb ≠ 0) ∨ (op = 7 ∧ ch ≠ 0) ∨
       ((op = 5 ∨ op = 6) ∧ p.nch ≤ ch) ∨
       ((op = 3 ∨ op = 4) ∧ p.hasRange = false) ∨ (op = 7 ∧ p.hasFill = false))) ∧
  ∀ (s : State) (c : Command) (rest : List Input) (e : Illegal), s.inputs = .command c :: rest →
    s.halted = false → decode s.params c = .error e →
    step s = .next { s with inputs := rest, responses := s.responses ++ [⟨.illegalCommand, []⟩] }

/-- R78: with both extensions there are `20 + 17 * NCH` legal command words; with `NCH = 1` they are the 37 words
listed. -/
def Obligations.LegalWordsCounted : Prop :=
  (∀ p : Params, p.wf = true → p.hasRange = true → p.hasFill = true →
    ((List.range 65536).filter fun w => (decode p ⟨BitVec.ofNat 16 w, 0, 0⟩).isOk).length = 20 + 17 * p.nch) ∧
  ∀ w < 65536, (decode ⟨1, true, true⟩ ⟨BitVec.ofNat 16 w, 0, 0⟩).isOk = true ↔
    w ∈ [0x1000, 0x2000, 0x3000, 0x4000, 0x6000] ++ (List.range 16).map (fun k => 0x5000 + 0x100 * k) ++
      (List.range 16).map (fun k => 0x7000 + 0x100 * k)

/-- R79: without extension R, opcodes 3 and 4 are illegal; without extension F, opcode 7 is; on every other
opcode the decoder does not look at the two parameters. -/
def Obligations.AbsentExtensionsAreReservedOpcodes : Prop :=
  ∀ (p : Params) (c : Command),
    let op := (c.cw.extractLsb' 12 4).toNat
    (p.hasRange = false → op = 3 ∨ op = 4 → ∃ e, decode p c = .error e) ∧
    (p.hasFill = false → op = 7 → ∃ e, decode p c = .error e) ∧
    (op ≠ 3 → op ≠ 4 → op ≠ 7 → ∀ r f : Bool, decode { p with hasRange := r, hasFill := f } c = decode p c) ∧
    (op = 3 ∨ op = 4 → ∀ f : Bool, decode { p with hasFill := f } c = decode p c) ∧
    (op = 7 → ∀ r : Bool, decode { p with hasRange := r } c = decode p c)

/-- R76 and the table of R84: command words written out bit by bit decode to the commands they stand for. -/
def Obligations.SampleWordsDecode : Prop :=
  decode ⟨256, true, true⟩ ⟨0b0001000000000000, 5489, 7⟩ = .ok (.seed 5489) ∧
  decode ⟨256, true, true⟩ ⟨0b0010000000000000, 1, 2⟩ = .ok .next64 ∧
  decode ⟨256, true, true⟩ ⟨0b0011000000000000, 10, 20⟩ = .ok (.range 10) ∧
  decode ⟨256, true, true⟩ ⟨0b0100000000000000, 10, 20⟩ = .ok (.range2 10 20) ∧
  decode ⟨256, true, true⟩ ⟨0b0101001110000001, 0, 0⟩ = .ok (.dscfg 0x81 3) ∧
  decode ⟨256, true, true⟩ ⟨0b0110000011111111, 0, 0⟩ = .ok (.dsnext 255) ∧
  decode ⟨256, true, true⟩ ⟨0b0111100000000000, 5, 0⟩ = .ok (.fill 8 5) ∧
  decode ⟨1, true, true⟩ ⟨0b0101000100000001, 0, 0⟩ = .error .noSuchChannel ∧
  decode ⟨256, true, true⟩ ⟨0b0110000100000000, 0, 0⟩ = .error .fieldNotZero

/-! ## The step, the ports and reset -/

/-- A step runs the decoded command: the presented command is taken off the port and executed, and nothing else
happens (R70). -/
def Obligations.StepRunsDecodedCommand : Prop :=
  ∀ (s : State) (c : Command) (rest : List Input) (i : Instr), s.inputs = .command c :: rest →
    decode s.params c = .ok i → step s = exec i { s with inputs := rest }

/-- R83: the decode procedure, line by line, on the state without the command that was taken. -/
def Obligations.StepFollowsTheDecodeProcedure : Prop :=
  ∀ (s : State) (cw : BitVec 16) (opa opb : Word) (rest : List Input), s.inputs = .command ⟨cw, opa, opb⟩ :: rest →
    let u : State := { s with inputs := rest }
    let refuse (f : Status) : Result := .next { u with responses := u.responses ++ [⟨f, []⟩] }
    let illegal : Result := refuse .illegalCommand
    let wb := cw.extractLsb' 8 4
    let ch := cw.extractLsb' 0 8
    step s =
      if s.halted = true then refuse .halted
      else match (cw.extractLsb' 12 4).toNat with
        | 1 => if wb ≠ 0 ∨ ch ≠ 0 then illegal else exec (.seed opa) u
        | 2 => if wb ≠ 0 ∨ ch ≠ 0 then illegal else exec .next64 u
        | 3 => if s.hasRange = false ∨ wb ≠ 0 ∨ ch ≠ 0 then illegal else exec (.range opa) u
        | 4 => if s.hasRange = false ∨ wb ≠ 0 ∨ ch ≠ 0 then illegal else exec (.range2 opa opb) u
        | 5 => if ch.toNat ≥ s.ch.length then illegal else exec (.dscfg ch wb) u
        | 6 => if wb ≠ 0 ∨ ch.toNat ≥ s.ch.length then illegal else exec (.dsnext ch) u
        | 7 => if s.hasFill = false ∨ ch ≠ 0 then illegal else exec (.fill wb opa) u
        | _ => illegal

/-- R70, R221: exactly one response per command, in order, and none for a reset; with nothing presented the block
does nothing. -/
def Obligations.OneResponsePerCommand : Prop :=
  (∀ s t : State, step s = .next t →
    (∃ new, t.responses = s.responses ++ new) ∧
    t.responses.length + commandCount t.inputs = s.responses.length + commandCount s.inputs) ∧
  ∀ s : State, s.inputs = [] → step s = .next s

/-- R81: the shape of the response a command adds. No data unless OK; then none for `SEED` and `DSCFG`, one beat
for `NEXT64`, `RANGE`, `RANGE2` and `DSNEXT`, `n` beats for `FILL`; the beats of a `W`-byte window have zeros
above bit `8 * W - 1`. -/
def Obligations.ResponseShape : Prop :=
  ∀ (s t : State) (c : Command) (rest : List Input), s.inputs = .command c :: rest → step s = .next t →
    ∃ r : Response, t.responses = s.responses ++ [r] ∧ (r.status ≠ .ok → r.data = []) ∧
      (r.status = .ok →
        match decode s.params c with
        | .error _ => False
        | .ok i =>
          match i with
          | .seed _ => r.data = []
          | .dscfg _ _ => r.data = []
          | .next64 => r.data.length = 1
          | .range _ => r.data.length = 1
          | .range2 _ _ => r.data.length = 1
          | .dsnext c => r.data.length = 1 ∧ ∀ b ∈ r.data, b.toNat < 2 ^ (8 * (s.channel c.toNat).w.bytes)
          | .fill w n => r.data.length = n.toNat ∧ ∀ b ∈ r.data, b.toNat < 2 ^ (8 * w.toNat))

/-- R82: the seven status codes, by number; 7 to 15 are never produced. -/
def Obligations.StatusCodesAreNumbered : Prop :=
  [Status.ok, .invalidArgument, .notSeeded, .notConfigured, .illegalCommand, .contractViolation, .halted].map
      (fun f => f.code.toNat) = [0, 1, 2, 3, 4, 5, 6] ∧
  (∀ f : Status, f.code.toNat < 7) ∧ ∀ f g : Status, f.code = g.code → f = g

/-- R36: the registers the spec gives a value, after reset, on a block of any parameters. (That `mt` and `sample`
are zero then is the model's choice, notes/assumptions/1.md, and is not claimed here.) -/
def Obligations.ResetRegisterValues : Prop :=
  ∀ p : Params,
    let s := State.resetOf p
    s.gen.seeded = false ∧ s.halted = false ∧ s.gen.idx.val = 312 ∧ s.params = p ∧
    (∀ c < p.nch, (s.channel c).w.bytes = 0 ∧ (s.channel c).rem.val = 0) ∧ s.inputs = [] ∧ s.responses = []

/-- R210: reset, whenever it is applied, brings the registers to the values of R36 and answers nothing; the
parameters of the block and what the host has still to present stay. -/
def Obligations.ResetInputRestoresResetValues : Prop :=
  ∀ (s : State) (rest : List Input), s.inputs = .reset :: rest →
    ∃ t, step s = .next t ∧
      t = { State.resetOf s.params with inputs := rest, responses := s.responses } ∧
      t.gen.seeded = false ∧ t.halted = false ∧ t.gen.idx.val = 312 ∧
      ∀ c < s.ch.length, (t.channel c).w.bytes = 0 ∧ (t.channel c).rem.val = 0

/-! ## Faults -/

/-- R186: a halted block answers `HALTED` to every command, legal or not, and changes nothing; only reset ends
that; the command that caused the halt got `CONTRACT_VIOLATION`. -/
def Obligations.HaltedBlockAnswersHalted : Prop :=
  (∀ (s : State) (c : Command) (rest : List Input), s.inputs = .command c :: rest → s.halted = true →
    step s = .next { s with inputs := rest, responses := s.responses ++ [⟨.halted, []⟩] }) ∧
  (∀ (i : Instr) (s : State), s.halted = true →
    exec i s = .next { s with responses := s.responses ++ [⟨.halted, []⟩] }) ∧
  (∀ (i : Instr) (s t : State), s.halted = false → exec i s = .next t → t.halted = true →
    t.responses = s.responses ++ [⟨.contractViolation, []⟩]) ∧
  (∀ s t : State, step s = .next t → s.halted = true → (∀ rest, s.inputs ≠ .reset :: rest) → t.halted = true)

/-- R183: every command that draws answers `NOT_SEEDED` on an unseeded block, `FILL` also when `n == 0` and
`DSNEXT` whatever its channel holds; `SEED` and `DSCFG` never do; and on a block that meets the invariant no
channel holds bytes then. -/
def Obligations.DrawingBeforeSeedAnswersNotSeeded : Prop :=
  (∀ (i : Instr) (s : State), s.halted = false → i.wellFormed s.params = true → s.gen.seeded = false →
    i = .next64 ∨ (∃ m, i = .range m) ∨ (∃ lo hi, i = .range2 lo hi) ∨ (∃ c, i = .dsnext c) ∨ (∃ w n, i = .fill w n) →
    exec i s = .next { s with responses := s.responses ++ [⟨.notSeeded, []⟩] }) ∧
  (∀ (i : Instr) (s t : State), (∃ x, i = .seed x) ∨ (∃ c w, i = .dscfg c w) → exec i s = .next t →
    t.responses ≠ s.responses ++ [⟨.notSeeded, []⟩]) ∧
  (∀ s : State, s.Inv → s.gen.seeded = false → ∀ k ∈ s.ch, k.rem.val = 0)

/-- R181: the three cases of `INVALID_ARGUMENT`, each before any draw or write, so the state after it is the
state before. -/
def Obligations.InvalidArgumentsChangeNothing : Prop :=
  ∀ s : State, s.halted = false →
    (s.hasRange = true → s.gen.seeded = true →
      exec (.range 0) s = .next { s with responses := s.responses ++ [⟨.invalidArgument, []⟩] } ∧
      ∀ lo hi : Word, hi.toNat ≤ lo.toNat →
        exec (.range2 lo hi) s = .next { s with responses := s.responses ++ [⟨.invalidArgument, []⟩] }) ∧
    ∀ (c : BitVec 8) (w : BitVec 4), c.toNat < s.ch.length → w.toNat = 0 ∨ 8 % w.toNat ≠ 0 →
      exec (.dscfg c w) s = .next { s with responses := s.responses ++ [⟨.invalidArgument, []⟩] }

/-- R171, R182: `FILL` with a width that does not divide 8, width 0 among them, whatever `n` is: the block halts,
answers `CONTRACT_VIOLATION` with no data, and changes nothing else; every later command is then answered
`HALTED`. -/
def Obligations.FillContractViolationHalts : Prop :=
  ∀ (s : State) (w : BitVec 4) (n : Word), s.halted = false → s.hasFill = true → s.gen.seeded = true →
    w.toNat = 0 ∨ 8 % w.toNat ≠ 0 →
    ∃ t, exec (.fill w n) s = .next t ∧
      t = { s with halted := true, responses := s.responses ++ [⟨.contractViolation, []⟩] } ∧
      ∀ j : Instr, exec j t = .next { t with responses := t.responses ++ [⟨.halted, []⟩] }

/-- R188: the order of the tests. The first that fires decides the status of the response; where none fires, the
status is OK. -/
def Obligations.FirstFailingTestDecidesTheStatus : Prop :=
  ∀ (s t : State) (c : Command) (rest : List Input), s.inputs = .command c :: rest → step s = .next t →
    ∃ data, t.responses = s.responses ++ [⟨
      if s.halted = true then .halted
      else match decode s.params c with
        | .error _ => .illegalCommand
        | .ok i =>
          if i.draws = true ∧ s.gen.seeded = false then .notSeeded
          else match i with
            | .seed _ => .ok
            | .next64 => .ok
            | .range max => if max.toNat = 0 then .invalidArgument else .ok
            | .range2 lo hi => if hi.toNat ≤ lo.toNat then .invalidArgument else .ok
            | .dscfg _ w => if w.toNat = 0 ∨ 8 % w.toNat ≠ 0 then .invalidArgument else .ok
            | .dsnext c => if (s.channel c.toNat).w.bytes = 0 then .notConfigured else .ok
            | .fill w _ => if w.toNat = 0 ∨ 8 % w.toNat ≠ 0 then .contractViolation else .ok, data⟩]

/-- R189: a fault is delivered as the status of the faulting command's response, with no data, and leaves the
state as it was (without the command that was taken), but for `halted` after a contract violation. -/
def Obligations.FaultsArePrecise : Prop :=
  ∀ (s t : State) (c : Command) (rest : List Input) (r : Response), s.inputs = .command c :: rest →
    step s = .next t → t.responses = s.responses ++ [r] → r.status ≠ .ok →
    r.data = [] ∧
    t = { s with
      inputs := rest
      halted := if r.status = .contractViolation then true else s.halted
      responses := s.responses ++ [r] }

/-- R190: after a recoverable fault the next step does what it would have done had the faulting command never been
presented; its response is all that stays of it. After a contract violation the block is halted. -/
def Obligations.RecoverableFaultsLeaveNoTrace : Prop :=
  ∀ (s t : State) (c : Command) (rest : List Input) (r : Response), s.inputs = .command c :: rest →
    step s = .next t → t.responses = s.responses ++ [r] →
    (r.status ≠ .ok → r.status ≠ .contractViolation → r.status ≠ .halted →
      match step { s with inputs := rest }, step t with
      | .next a, .next b =>
        ∃ new, a.responses = s.responses ++ new ∧ b = { a with responses := s.responses ++ [r] ++ new }
      | .fault e, .fault f => e = f
      | _, _ => False) ∧
    (r.status = .contractViolation → t.halted = true)

/-! ## The generator -/

/-- R101: `SEED` on a block that is not halted answers OK with no data and leaves GEN with word 0 the seed, every
further word made from the word before it, `idx = 312` and `seeded = 1`; no other register changes. -/
def Obligations.SeedExpandsTheSeed : Prop :=
  (∀ seed : Word, encode (.seed seed) = ⟨0x1000, seed, 0⟩) ∧
  ∀ (seed : Word) (s : State), s.halted = false →
    ∃ mt : Vector Word 312,
      exec (.seed seed) s =
        .next { s with
          gen := { mt := mt, idx := 312, seeded := true }
          responses := s.responses ++ [⟨.ok, []⟩] } ∧
      mt[0] = seed ∧
      (∀ i : Fin 311, mt[i.val + 1] =
        6364136223846793005#64 * (mt[i.val] ^^^ (mt[i.val] >>> 62)) + BitVec.ofNat 64 (i.val + 1)) ∧
      (seed = 5489 → mt[1] = 0xB5347F47116BD3DE ∧ mt[2] = 0x9165B5762D1A61AE ∧ mt[311] = 0xC65AE95C45A5D796)

/-- R102, R37: two `SEED`s with one seed leave one and the same GEN, from any two states, so nothing of the old `mt`
and `idx` survives; every seed is accepted; and no seed gives an all-zero state vector. -/
def Obligations.SeedAloneDeterminesTheGenerator : Prop :=
  ∀ (seed : Word) (s u : State), s.halted = false → u.halted = false →
    ∃ t v, exec (.seed seed) s = .next t ∧ exec (.seed seed) u = .next v ∧ t.gen = v.gen ∧
      t.responses = s.responses ++ [⟨.ok, []⟩] ∧ ∃ i : Fin 312, t.gen.mt[i.val] ≠ 0

/-- R103: the twist, which the model computes in the closed form of R104, is the pass of R103: in place, in
increasing order, each step reading the vector as the earlier steps left it. The draw at `idx = 312` runs it and
takes the new word 0. -/
def Obligations.TwistIsTheInPlacePass : Prop :=
  (∀ mt : Vector Word 312, twist mt = twistInPlace mt) ∧
  ∀ g : Gen, g.idx.val = 312 →
    draw g = (temper (twistInPlace g.mt)[0], { g with mt := twistInPlace g.mt, idx := 1 })

/-- R104: the twist word by word. -/
def Obligations.TwistClosedForm : Prop :=
  ∀ (o : Vector Word 312),
    (∀ i : Fin 156, (twist o)[i.val] = o[i.val + 156] ^^^ mix o[i.val] o[i.val + 1]) ∧
    (∀ i : Fin 155, (twist o)[i.val + 156] = (twist o)[i.val] ^^^ mix o[i.val + 156] o[i.val + 157]) ∧
    (twist o)[311] = (twist o)[155] ^^^ mix o[311] (twist o)[0]

/-- R105: `mix` joins the upper 33 bits of `u` to the lower 31 bits of `l`, shifts right by one, and
exclusive-ors `A` exactly when bit 0 of `l` is 1; its sum never carries; and the bits the masks drop have no
effect. -/
def Obligations.MixJoinsUpperAndLowerBits : Prop :=
  (∀ u l : Word,
    let x : Word := u.extractLsb' 31 33 ++ l.extractLsb' 0 31
    mix u l = (if l.getLsbD 0 then (x >>> 1) ^^^ 0xB5026F5AA96619E9 else x >>> 1) ∧
    (u &&& 0xFFFFFFFF80000000) + (l &&& 0x7FFFFFFF) = x ∧
    (u &&& 0xFFFFFFFF80000000) ||| (l &&& 0x7FFFFFFF) = x ∧
    (u &&& 0xFFFFFFFF80000000).toNat + (l &&& 0x7FFFFFFF).toNat < 2 ^ 64 ∧
    x.getLsbD 0 = l.getLsbD 0) ∧
  (∀ u l u' l' : Word, u.extractLsb' 31 33 = u'.extractLsb' 31 33 → l.extractLsb' 0 31 = l'.extractLsb' 0 31 →
    mix u l = mix u' l') ∧
  mix 0 0 = 0 ∧ mix 0 1 = 0xB5026F5AA96619E9 ∧ mix u64Max 0 = 0x7FFFFFFFC0000000 ∧
  mix u64Max u64Max = 0xCAFD90A55699E616 ∧ mix 0x7FFFFFFF 0 = 0 ∧ mix 0 0x80000000 = 0

/-- R106: the four steps of the temper, and its values at the words R106 lists. -/
def Obligations.TemperFourSteps : Prop :=
  (∀ y0 y1 y2 y3 : Word,
    y1 = y0 ^^^ ((y0 >>> 29) &&& 0x5555555555555555) →
    y2 = y1 ^^^ ((y1 <<< 17) &&& 0x71D67FFFEDA60000) →
    y3 = y2 ^^^ ((y2 <<< 37) &&& 0xFFF7EEE000000000) →
    temper y0 = y3 ^^^ (y3 >>> 43)) ∧
  temper 0 = 0 ∧ temper 1 = 0x0040002000020801 ∧ temper 0x8000000000000000 = 0x8000000400100000 ∧
  temper u64Max = 0x7BFEEEEFEFA1D577 ∧ temper 0x0123456789ABCDEF = 0x2254DA7001198660

/-- R107: a draw returns the tempered word at the cursor and moves the cursor on by one; at 312 the twist runs
first and the word is the new word 0. -/
def Obligations.DrawTakesTheWordAtTheCursor : Prop :=
  ∀ g : Gen,
    (∀ h : g.idx.val < 312, (draw g).1 = temper (g.mt[g.idx.val]'h) ∧ (draw g).2.mt = g.mt ∧
      (draw g).2.idx.val = g.idx.val + 1) ∧
    (g.idx.val = 312 → (draw g).1 = temper ((twist g.mt)[0]) ∧ (draw g).2.mt = twist g.mt ∧
      (draw g).2.idx.val = 1) ∧
    (draw g).2.seeded = g.seeded ∧ 1 ≤ (draw g).2.idx.val

/-- R108: `NEXT64` on a seeded block that is not halted answers OK with the word at the cursor, tempered; it
writes `idx`, and `mt` only when the cursor stood at 312, and no other register. On an unseeded block it answers
`NOT_SEEDED`. After `SEED 5489` it answers the value R108 gives. -/
def Obligations.Next64ReturnsTheNextWord : Prop :=
  encode .next64 = ⟨0x2000, 0, 0⟩ ∧
  (∀ s : State, s.halted = false →
    (s.gen.seeded = false →
      exec .next64 s = .next { s with responses := s.responses ++ [⟨.notSeeded, []⟩] }) ∧
    (s.gen.seeded = true → ∀ h : s.gen.idx.val < 312,
      exec .next64 s =
        .next { s with
          gen := { s.gen with idx := ⟨s.gen.idx.val + 1, by omega⟩ }
          responses := s.responses ++ [⟨.ok, [temper (s.gen.mt[s.gen.idx.val]'h)]⟩] }) ∧
    (s.gen.seeded = true → s.gen.idx.val = 312 →
      exec .next64 s =
        .next { s with
          gen := { s.gen with mt := twist s.gen.mt, idx := 1 }
          responses := s.responses ++ [⟨.ok, [temper ((twist s.gen.mt)[0])]⟩] })) ∧
  (twist (seedGen 5489).mt)[0] = 0x245B1C66F2BDC210 ∧ temper 0x245B1C66F2BDC210 = 0xC96D191CF6F6AEA6

/-- R109: after `SEED`, draw `k` (from 1) runs the twist exactly when `(k - 1) mod 312 == 0`; it returns the temper
of word `(k - 1) mod 312` of the vector after `ceil(k / 312)` twists, and leaves `idx = ((k - 1) mod 312) + 1`. -/
def Obligations.DrawsAfterSeedByNumber : Prop :=
  ∀ (seed : Word) (k : Nat), 1 ≤ k →
    let before := genAfter (k - 1) (seedGen seed)
    let twisted := twist^[(k + 311) / 312] (seedGen seed).mt
    (before.idx.val = 312 ↔ (k - 1) % 312 = 0) ∧
    drawAt (seedGen seed) (k - 1) = temper (wordAt twisted (k - 1)) ∧
    (genAfter k (seedGen seed)).mt = twisted ∧
    (genAfter k (seedGen seed)).idx.val = (k - 1) % 312 + 1

/-- R111: what `NEXT64` answers and the GEN it leaves depend on GEN alone: not on the channels, the parameters,
the responses or the inputs. -/
def Obligations.Next64DependsOnGenAlone : Prop :=
  ∀ s u t : State, s.halted = false → u.halted = false → s.gen = u.gen → exec .next64 s = .next t →
    ∃ v r, exec .next64 u = .next v ∧ v.gen = t.gen ∧
      t.responses = s.responses ++ [r] ∧ v.responses = u.responses ++ [r]

/-- R24: besides `SEED`, only the twist writes `mt`: after any other command the vector is the old one, twisted
some number of times. -/
def Obligations.OnlySeedAndTwistWriteTheVector : Prop :=
  ∀ (i : Instr) (s t : State), exec i s = .next t →
    (∃ seed, i = .seed seed) ∨ ∃ n : Nat, t.gen.mt = twist^[n] s.gen.mt

/-- R101, R108, R130, R134, R138, R150, R158, R172: `SEED` expands its seed into GEN; every other command changes GEN
by draws alone, and by this many when it answers OK: one for `NEXT64`; none for `DSCFG`; one for `DSNEXT` when the channel has no byte left and none
otherwise; at least one for `RANGE` and `RANGE2`; `ceil(n * w / 8)` for `FILL`. -/
def Obligations.CommandsChangeGenByDrawsAlone : Prop :=
  ∀ (i : Instr) (s t : State) (r : Response), exec i s = .next t → t.responses = s.responses ++ [r] →
    r.status = .ok →
    match i with
    | .seed seed => t.gen = seedGen seed
    | .next64 => t.gen = genAfter 1 s.gen
    | .range _ => ∃ k, 1 ≤ k ∧ t.gen = genAfter k s.gen
    | .range2 _ _ => ∃ k, 1 ≤ k ∧ t.gen = genAfter k s.gen
    | .dscfg _ _ => t.gen = s.gen
    | .dsnext c => t.gen = genAfter (if (s.channel c.toNat).rem.val = 0 then 1 else 0) s.gen
    | .fill w n => t.gen = genAfter ((n.toNat * w.toNat + 7) / 8) s.gen

/-! ## The downsampler -/

/-- R131: the widths that pass the check are 1, 2, 4 and 8, which are the nonzero `w` with `8 mod w == 0`. -/
def Obligations.LegalWidthsDivideEight : Prop :=
  ∀ wb : BitVec 4,
    ((∃ w, widthOfField wb = some w) ↔ wb.toNat ≠ 0 ∧ 8 % wb.toNat = 0) ∧
    ((∃ w, widthOfField wb = some w) ↔ wb.toNat = 1 ∨ wb.toNat = 2 ∨ wb.toNat = 4 ∨ wb.toNat = 8) ∧
    ∀ w, widthOfField wb = some w → w.bytes = wb.toNat

/-- R130: `DSCFG` on a block that is not halted, seeded or not: a legal width goes into the channel's `W` and 0
into its `rem`, its `sample` stays, and no other channel and nothing of GEN changes; any other width is answered
`INVALID_ARGUMENT` and changes nothing. -/
def Obligations.DscfgConfiguresTheChannel : Prop :=
  ∀ (c : BitVec 8) (wb : BitVec 4) (s : State), s.halted = false → c.toNat < s.ch.length →
    (encode (.dscfg c wb)).cw = 0x5000 ||| (wb.setWidth 16 <<< 8) ||| c.setWidth 16 ∧
    (wb.toNat ≠ 0 → 8 % wb.toNat = 0 →
      ∃ t, exec (.dscfg c wb) s = .next t ∧
        t = { s with ch := t.ch, responses := s.responses ++ [⟨.ok, []⟩] } ∧
        t.ch.length = s.ch.length ∧
        (t.channel c.toNat).w.bytes = wb.toNat ∧ (t.channel c.toNat).rem.val = 0 ∧
        (t.channel c.toNat).sample = (s.channel c.toNat).sample ∧
        ∀ d, d ≠ c.toNat → t.channel d = s.channel d) ∧
    (wb.toNat = 0 ∨ 8 % wb.toNat ≠ 0 →
      exec (.dscfg c wb) s = .next { s with responses := s.responses ++ [⟨.invalidArgument, []⟩] })

/-- R132: `DSNEXT` on a block that is not halted. Unseeded, it answers `NOT_SEEDED`; on a channel that is not
configured, `NOT_CONFIGURED`. On a configured channel that meets R31's invariant: when `rem` is 0 a draw refills the
channel and the window is the top of the new sample; otherwise GEN does not change and the window is the next lower
one. `rem` falls by `W` and never below 0; the shift is at most 56; no other channel changes. -/
def Obligations.DsnextEmitsTheNextWindow : Prop :=
  ∀ (c : BitVec 8) (s : State), s.halted = false → c.toNat < s.ch.length →
    (encode (.dsnext c)).cw = 0x6000 ||| c.setWidth 16 ∧
    (s.gen.seeded = false →
      exec (.dsnext c) s = .next { s with responses := s.responses ++ [⟨.notSeeded, []⟩] }) ∧
    (s.gen.seeded = true → (s.channel c.toNat).w = .notConfigured →
      exec (.dsnext c) s = .next { s with responses := s.responses ++ [⟨.notConfigured, []⟩] }) ∧
    (s.gen.seeded = true → (s.channel c.toNat).w ≠ .notConfigured → (s.channel c.toNat).Inv →
      let k := s.channel c.toNat
      let refilled := k.rem.val = 0
      let rem := (if refilled then 8 else k.rem.val) - k.w.bytes
      let sample := if refilled then (draw s.gen).1 else k.sample
      let value := BitVec.ofNat 64 (sample.toNat / 2 ^ (8 * rem) % 2 ^ (8 * k.w.bytes))
      ∃ t, exec (.dsnext c) s = .next t ∧
        t = { s with
          gen := if refilled then (draw s.gen).2 else s.gen
          ch := t.ch
          responses := s.responses ++ [⟨.ok, [value]⟩] } ∧
        t.ch.length = s.ch.length ∧
        (t.channel c.toNat).w = k.w ∧ (t.channel c.toNat).rem.val = rem ∧ (t.channel c.toNat).sample = sample ∧
        (∀ d, d ≠ c.toNat → t.channel d = s.channel d) ∧
        k.w.bytes ≤ (if refilled then 8 else k.rem.val) ∧ rem * 8 ≤ 56)

/-- R133: the windows of one sample. After `j + 1` `DSNEXT`s from an empty channel, `j < 8 / W`, one draw has been
made, `rem` is `8 - (j + 1) * W` and the last answer is window `j` of the sample counted from the top; the
windows put together are the sample. -/
def Obligations.WindowsOfASampleFromTheTop : Prop :=
  (∀ (c : BitVec 8) (s : State) (j : Nat), s.halted = false → c.toNat < s.ch.length → s.gen.seeded = true →
    (s.channel c.toNat).w ≠ .notConfigured → (s.channel c.toNat).rem.val = 0 →
    j < 8 / (s.channel c.toNat).w.bytes →
    let w := (s.channel c.toNat).w
    ∃ t, execTimes (.dsnext c) (j + 1) s = .next t ∧ t.gen = (draw s.gen).2 ∧
      (t.channel c.toNat).rem.val = 8 - (j + 1) * w.bytes ∧ (t.channel c.toNat).sample = (draw s.gen).1 ∧
      t.responses.getLast? = some ⟨.ok, [BitVec.ofNat 64 (windowNumber w (draw s.gen).1 j)]⟩) ∧
  ∀ (w : Width) (sample : Word), w ≠ .notConfigured →
    ((List.range (8 / w.bytes)).map fun j =>
      windowNumber w sample j * 2 ^ (64 - 8 * w.bytes * (j + 1))).sum = sample.toNat

/-- R134: `n` `DSNEXT`s from an empty channel make one draw per `8 / W` of them, rounded up, and leave
`rem = (8 - (n mod (8/W)) * W) mod 8`. -/
def Obligations.OneDrawPerSampleOfWindows : Prop :=
  ∀ (c : BitVec 8) (s : State) (n : Nat), s.halted = false → c.toNat < s.ch.length → s.gen.seeded = true →
    (s.channel c.toNat).w ≠ .notConfigured → (s.channel c.toNat).rem.val = 0 →
    let w := (s.channel c.toNat).w.bytes
    ∃ t, execTimes (.dsnext c) n s = .next t ∧ t.gen = genAfter ((n * w + 7) / 8) s.gen ∧
      (t.channel c.toNat).rem.val = (8 - n % (8 / w) * w) % 8 ∧
      t.responses.length = s.responses.length + n

/-- R139: on a channel of width 8 that meets R31's invariant, `DSNEXT` answers what `NEXT64` answers and leaves GEN
as `NEXT64` does. -/
def Obligations.EightByteChannelIsNext64 : Prop :=
  ∀ (c : BitVec 8) (s : State), s.halted = false → c.toNat < s.ch.length → s.gen.seeded = true →
    (s.channel c.toNat).w = .eight → (s.channel c.toNat).Inv →
    ∃ t u r, exec (.dsnext c) s = .next t ∧ exec .next64 s = .next u ∧ t.gen = u.gen ∧
      t.responses = s.responses ++ [r] ∧ u.responses = s.responses ++ [r]

/-- R214: bytes left in a channel outlive a `SEED`: the next `DSNEXT` answers the next window of the old sample
and takes no draw of the new stream. -/
def Obligations.StaleBytesOutliveSeed : Prop :=
  ∀ (seed : Word) (c : BitVec 8) (s t : State), s.halted = false → c.toNat < s.ch.length →
    (s.channel c.toNat).w ≠ .notConfigured → (s.channel c.toNat).Inv → (s.channel c.toNat).rem.val ≠ 0 →
    exec (.seed seed) s = .next t →
    t.ch = s.ch ∧
    ∃ u, exec (.dsnext c) t = .next u ∧ u.gen = seedGen seed ∧
      u.responses = s.responses ++ [⟨.ok, []⟩, ⟨.ok, [window (s.channel c.toNat).w
        ((s.channel c.toNat).rem.val - (s.channel c.toNat).w.bytes) (s.channel c.toNat).sample]⟩]

/-! ## Extension R -/

/-- R150: `RANGE max` on a block that is not halted. Unseeded, it answers `NOT_SEEDED`; with `max == 0`,
`INVALID_ARGUMENT` and no draw. Otherwise it completes as soon as a draw is accepted, however many come before it: it
answers that draw modulo `max`, GEN is as after that many draws, and nothing else changes. `RANGE 7` after
`SEED 5489` accepts its first draw and answers 1. -/
def Obligations.RangeReturnsTheFirstAcceptedDraw : Prop :=
  (∀ max : Word, encode (.range max) = ⟨0x3000, max, 0⟩) ∧
  (∀ (max : Word) (s : State), s.halted = false → s.hasRange = true →
    (s.gen.seeded = false →
      exec (.range max) s = .next { s with responses := s.responses ++ [⟨.notSeeded, []⟩] }) ∧
    (s.gen.seeded = true → max = 0 →
      exec (.range max) s = .next { s with responses := s.responses ++ [⟨.invalidArgument, []⟩] }) ∧
    (s.gen.seeded = true → max ≠ 0 → ∀ k : Nat,
      (∀ j < k, (drawAt s.gen j).toNat - (drawAt s.gen j).toNat % max.toNat > (2 ^ 64 - 1) - max.toNat) →
      (drawAt s.gen k).toNat - (drawAt s.gen k).toNat % max.toNat ≤ (2 ^ 64 - 1) - max.toNat →
      exec (.range max) s =
        .next { s with
          gen := genAfter (k + 1) s.gen
          responses := s.responses ++ [⟨.ok, [BitVec.ofNat 64 ((drawAt s.gen k).toNat % max.toNat)]⟩] })) ∧
  drawAt (seedGen 5489) 0 = 0xC96D191CF6F6AEA6 ∧ rejects 7 0xC96D191CF6F6AEA6 = false ∧
  (0xC96D191CF6F6AEA6 : Word) % 7 = 1

/-- R153: `RANGE` and `RANGE2` complete when, and only when, a draw is accepted; the model's one fault stands for
the command that never does, and no other command ever stops the model. -/
def Obligations.OnlyAnEndlessRejectionLoopStops : Prop :=
  ∀ (i : Instr) (s : State) (f : Fault),
    (exec i s = .fault f ↔
      s.halted = false ∧ i.wellFormed s.params = true ∧ s.gen.seeded = true ∧
      ((∃ max, i = .range max ∧ max ≠ 0 ∧ ∀ k, rejects max (drawAt s.gen k) = true) ∨
       (∃ lo hi, i = .range2 lo hi ∧ lo.toNat < hi.toNat ∧ ∀ k, rejects (hi - lo) (drawAt s.gen k) = true))) ∧
    ∀ q, exec i s ≠ .refused q

/-- R151, R157: a draw is rejected exactly when it is not below `q = floor(U64_MAX / max) * max`; the number of
rejected words is `2^64 - q`: `max` when it divides `2^64`, else `2^64 mod max`; and every result value has exactly
`q / max` accepted draws that give it. -/
def Obligations.RejectionThreshold : Prop :=
  ∀ max : Word, max ≠ 0 →
    let q := rangeThreshold max.toNat
    (∀ raw : Word, rejects max raw = true ↔ q ≤ raw.toNat) ∧
    2 ^ 64 - q = (if 2 ^ 64 % max.toNat = 0 then max.toNat else 2 ^ 64 % max.toNat) ∧
    ∀ r < max.toNat,
      ((Finset.range (2 ^ 64)).filter fun raw =>
        rejects max (BitVec.ofNat 64 raw) = false ∧ raw % max.toNat = r).card = q / max.toNat

/-- R152: a draw below 2^63 is always accepted, since `q` is at least 2^63, and is `max` itself where that is more;
at most half of all words are rejected, exactly half at `max = 2^63`; fewer than 2^32 of them when `max < 2^32`. -/
def Obligations.LowDrawsAreAlwaysAccepted : Prop :=
  ∀ max : Word, max ≠ 0 →
    (∀ raw : Word, raw.toNat < 2 ^ 63 → rejects max raw = false) ∧
    2 ^ 63 ≤ rangeThreshold max.toNat ∧
    (2 ^ 63 < max.toNat → rangeThreshold max.toNat = max.toNat) ∧
    2 ^ 64 - rangeThreshold max.toNat ≤ 2 ^ 63 ∧
    (max.toNat = 2 ^ 63 → 2 ^ 64 - rangeThreshold max.toNat = 2 ^ 63) ∧
    (max.toNat = 2 ^ 63 + 1 → 2 ^ 64 - rangeThreshold max.toNat = 2 ^ 63 - 1) ∧
    (max.toNat < 2 ^ 32 → 2 ^ 64 - rangeThreshold max.toNat < 2 ^ 32)

/-- R156: no intermediate value of the two commands overflows or borrows, so the block computes what unbounded
integers give. The rejection test is the integer one; an OK answer of `RANGE` or `RANGE2` is, as an integer, what the
integer loop gives on the draws to come; there is no division by zero, since an OK answer has `max != 0` and
`min < max`. The last clauses say it of each intermediate value. -/
def Obligations.RangeArithmeticDoesNotWrap : Prop :=
  (∀ max raw : Word, max ≠ 0 → (rejects max raw = true ↔ RejectsInt max.toNat raw.toNat)) ∧
  (∀ (max x : Word) (s t : State), exec (.range max) s = .next t → t.responses = s.responses ++ [⟨.ok, [x]⟩] →
    max ≠ 0 ∧ ∃ k, AcceptedAfterInt max.toNat s.gen k ∧ t.gen = genAfter (k + 1) s.gen ∧
      (x.toNat : Int) = (drawAt s.gen k).toNat % max.toNat) ∧
  (∀ (lo hi x : Word) (s t : State), exec (.range2 lo hi) s = .next t → t.responses = s.responses ++ [⟨.ok, [x]⟩] →
    lo.toNat < hi.toNat ∧ ∃ k, AcceptedAfterInt (hi.toNat - lo.toNat) s.gen k ∧ t.gen = genAfter (k + 1) s.gen ∧
      (x.toNat : Int) = (drawAt s.gen k).toNat % (hi.toNat - lo.toNat) + lo.toNat ∧
      lo.toNat ≤ x.toNat ∧ x.toNat < hi.toNat) ∧
  ∀ max raw : Word, max ≠ 0 →
    (raw % max).toNat = raw.toNat % max.toNat ∧ (raw % max).toNat < max.toNat ∧
    (raw % max).toNat ≤ raw.toNat ∧ (raw - raw % max).toNat = raw.toNat - raw.toNat % max.toNat ∧
    (u64Max - max).toNat = (2 ^ 64 - 1) - max.toNat ∧ (u64Max - max).toNat ≤ 2 ^ 64 - 2 ∧
    ∀ lo hi : Word, lo.toNat < hi.toNat → max = hi - lo →
      max.toNat = hi.toNat - lo.toNat ∧ (raw % max + lo).toNat = (raw % max).toNat + lo.toNat ∧
      lo.toNat ≤ (raw % max + lo).toNat ∧ (raw % max + lo).toNat < hi.toNat

/-- R154: `RANGE2 min, max` on a block that is not halted. Unseeded, it answers `NOT_SEEDED`; with `min >= max`,
unsigned, `INVALID_ARGUMENT` and no draw. Otherwise it answers what `RANGE (max - min)` answers, plus `min`, which
lies in `[min, max)`, and leaves the state that command leaves; it completes as soon as a draw is accepted.
`RANGE2 10, 20` after `SEED 5489` accepts its first draw and answers 10. -/
def Obligations.Range2IsRangeMovedUp : Prop :=
  (∀ lo hi : Word, encode (.range2 lo hi) = ⟨0x4000, lo, hi⟩) ∧
  (∀ (lo hi : Word) (s : State), s.halted = false → s.hasRange = true →
    (s.gen.seeded = false →
      exec (.range2 lo hi) s = .next { s with responses := s.responses ++ [⟨.notSeeded, []⟩] }) ∧
    (s.gen.seeded = true → hi.toNat ≤ lo.toNat →
      exec (.range2 lo hi) s = .next { s with responses := s.responses ++ [⟨.invalidArgument, []⟩] }) ∧
    (s.gen.seeded = true → lo.toNat < hi.toNat →
      (∀ t, exec (.range (hi - lo)) s = .next t →
        ∃ v : Word, t.responses = s.responses ++ [⟨.ok, [v]⟩] ∧
          exec (.range2 lo hi) s = .next { t with responses := s.responses ++ [⟨.ok, [v + lo]⟩] } ∧
          lo.toNat ≤ (v + lo).toNat ∧ (v + lo).toNat < hi.toNat) ∧
      ∀ k, AcceptedAfter (hi - lo) s.gen k →
        exec (.range2 lo hi) s =
          .next { s with
            gen := genAfter (k + 1) s.gen
            responses := s.responses ++ [⟨.ok, [drawAt s.gen k % (hi - lo) + lo]⟩] })) ∧
  AcceptedAfter 10 (seedGen 5489) 0 ∧ drawAt (seedGen 5489) 0 % (20 - 10) + 10 = 10

/-- R158: a `RANGE` or `RANGE2` that answers OK leaves GEN as some number `k >= 1` of `NEXT64`s leave it, its result
is computed from what the `k`-th of them answers, and no channel changes. -/
def Obligations.RangeDrawsAreNext64s : Prop :=
  ∀ (i : Instr) (s t : State) (bound base x : Word),
    (i = .range bound ∧ base = 0) ∨ (∃ hi, i = .range2 base hi ∧ bound = hi - base) →
    exec i s = .next t → t.responses = s.responses ++ [⟨.ok, [x]⟩] →
    ∃ (k : Nat) (u : State) (v : Word), 1 ≤ k ∧ execTimes .next64 k s = .next u ∧ u.gen = t.gen ∧
      u.responses.getLast? = some ⟨.ok, [v]⟩ ∧ x = v % bound + base ∧ t.ch = s.ch

/-- R155: bounds at the edges. An empty or reversed range is `INVALID_ARGUMENT`; a range of one value answers that
value whatever the generator holds; which draws the bounds 1, 2, 2^63, 2^63 + 1 and `U64_MAX` reject; what they
answer otherwise. -/
def Obligations.RangesAtTheEdges : Prop :=
  (∀ (lo hi : Word) (s : State), s.halted = false → s.hasRange = true → s.gen.seeded = true →
    (lo, hi) ∈ [((0 : Word), (0 : Word)), (1, 1), (2, 1), (u64Max, u64Max)] →
    exec (.range2 lo hi) s = .next { s with responses := s.responses ++ [⟨.invalidArgument, []⟩] }) ∧
  (∀ (lo hi : Word) (s t : State), s.halted = false → s.hasRange = true → s.gen.seeded = true →
    hi.toNat = lo.toNat + 1 → exec (.range2 lo hi) s = .next t → t.responses = s.responses ++ [⟨.ok, [lo]⟩]) ∧
  (∀ s t : State, s.halted = false → s.hasRange = true → s.gen.seeded = true → exec (.range 1) s = .next t →
    t.responses = s.responses ++ [⟨.ok, [0]⟩]) ∧
  ∀ raw : Word,
    (rejects 1 raw = true ↔ raw = u64Max) ∧
    (rejects u64Max raw = true ↔ raw = u64Max) ∧ (raw ≠ u64Max → raw % u64Max = raw) ∧
    (rejects 0x8000000000000000 raw = true ↔ raw.getLsbD 63 = true) ∧
    (raw.getLsbD 63 = false → raw % 0x8000000000000000 = raw) ∧
    (rejects 0x8000000000000001 raw = false ↔ raw.toNat ≤ 2 ^ 63) ∧
    (rejects 2 raw = true ↔ raw = u64Max ∨ raw = u64Max - 1) ∧
    raw % 2 = (if raw.getLsbD 0 then 1 else 0)

/-! ## Extension F -/

/-- R170, R172: `FILL w, n` on a block that is not halted. Unseeded, it answers `NOT_SEEDED`; with an illegal width
it halts the block and answers `CONTRACT_VIOLATION`. Otherwise element `k` is window `k mod m` of draw
`floor(k / m) + 1` of the command, with `m = 8 / w`; `ceil(n / m)` draws are made; no channel and no flag changes.
`FILL 2, 5` after `SEED 5489` gives the five beats R170 lists and takes two draws. -/
def Obligations.FillElementsInOrder : Prop :=
  (∀ (wb : BitVec 4) (n : Word), encode (.fill wb n) = ⟨0x7000 ||| (wb.setWidth 16 <<< 8), n, 0⟩) ∧
  (∀ (wb : BitVec 4) (n : Word) (s : State), s.halted = false → s.hasFill = true →
    (s.gen.seeded = false →
      exec (.fill wb n) s = .next { s with responses := s.responses ++ [⟨.notSeeded, []⟩] }) ∧
    (s.gen.seeded = true → wb.toNat = 0 ∨ 8 % wb.toNat ≠ 0 →
      exec (.fill wb n) s =
        .next { s with halted := true, responses := s.responses ++ [⟨.contractViolation, []⟩] }) ∧
    (s.gen.seeded = true → ∀ w : Width, w ≠ .notConfigured → w.bytes = wb.toNat →
      exec (.fill wb n) s =
        .next { s with
          gen := genAfter ((n.toNat + 8 / w.bytes - 1) / (8 / w.bytes)) s.gen
          responses := s.responses ++ [⟨.ok, (List.range n.toNat).map fun k =>
            BitVec.ofNat 64 (windowNumber w (drawAt s.gen (k / (8 / w.bytes))) (k % (8 / w.bytes)))⟩] })) ∧
  (takeWindows 5 (Channel.configured .two 0) (seedGen 5489)).1 = [0xC96D, 0x191C, 0xF6F6, 0xAEA6, 0x401F] ∧
  (takeWindows 5 (Channel.configured .two 0) (seedGen 5489)).2.idx = 2

/-- R173: `FILL w, n` answers the values that `n` `DSNEXT`s answer on a channel just configured with that width, and
leaves GEN as they do; it leaves the channel alone, where they leave `rem = (8 - (n mod m) * w) mod 8`. An illegal
width halts the block in `FILL` and is `INVALID_ARGUMENT` in `DSCFG`. -/
def Obligations.FillIsManyDsnexts : Prop :=
  ∀ (c : BitVec 8) (wb : BitVec 4) (n : Word) (s : State), s.halted = false → s.hasFill = true →
    s.gen.seeded = true → c.toNat < s.ch.length →
    (wb.toNat ≠ 0 → 8 % wb.toNat = 0 →
      ∃ t u v out, exec (.fill wb n) s = .next t ∧ exec (.dscfg c wb) s = .next u ∧
        execTimes (.dsnext c) n.toNat u = .next v ∧
        t.responses = s.responses ++ [⟨.ok, out⟩] ∧ out.length = n.toNat ∧
        v.responses = u.responses ++ out.map (fun b => ⟨.ok, [b]⟩) ∧
        t.gen = v.gen ∧ t.ch = s.ch ∧
        (v.channel c.toNat).rem.val = (8 - n.toNat % (8 / wb.toNat) * wb.toNat) % 8) ∧
    (wb.toNat = 0 ∨ 8 % wb.toNat ≠ 0 →
      exec (.fill wb n) s =
        .next { s with halted := true, responses := s.responses ++ [⟨.contractViolation, []⟩] } ∧
      exec (.dscfg c wb) s = .next { s with responses := s.responses ++ [⟨.invalidArgument, []⟩] })

/-- R174: `FILL` of no elements answers OK with no beats and makes no draw; its width is checked all the same. -/
def Obligations.FillOfNothingDrawsNothing : Prop :=
  ∀ (wb : BitVec 4) (s : State), s.halted = false → s.hasFill = true → s.gen.seeded = true →
    (wb.toNat ≠ 0 → 8 % wb.toNat = 0 →
      exec (.fill wb 0) s = .next { s with responses := s.responses ++ [⟨.ok, []⟩] }) ∧
    (wb.toNat = 0 ∨ 8 % wb.toNat ≠ 0 →
      exec (.fill wb 0) s =
        .next { s with halted := true, responses := s.responses ++ [⟨.contractViolation, []⟩] })

/-! ## Frames and invariants -/

/-- What each command leaves unchanged when it answers: the parameters, the inputs and the number of channels
always; and of the registers, all but those its rule names. -/
def Obligations.CommandFrames : Prop :=
  ∀ (i : Instr) (s t : State), exec i s = .next t →
    t.hasRange = s.hasRange ∧ t.hasFill = s.hasFill ∧ t.inputs = s.inputs ∧ t.ch.length = s.ch.length ∧
    match i with
    | .seed _ => t.halted = s.halted ∧ t.ch = s.ch
    | .next64 => t.halted = s.halted ∧ t.ch = s.ch ∧ t.gen.seeded = s.gen.seeded
    | .range _ => t.halted = s.halted ∧ t.ch = s.ch ∧ t.gen.seeded = s.gen.seeded
    | .range2 _ _ => t.halted = s.halted ∧ t.ch = s.ch ∧ t.gen.seeded = s.gen.seeded
    | .dscfg c _ => t.halted = s.halted ∧ t.gen = s.gen ∧
        (t.channel c.toNat).sample = (s.channel c.toNat).sample ∧
        ∀ d, d ≠ c.toNat → t.channel d = s.channel d
    | .dsnext c => t.halted = s.halted ∧ t.gen.seeded = s.gen.seeded ∧
        (t.channel c.toNat).w = (s.channel c.toNat).w ∧
        ((s.channel c.toNat).rem.val ≠ 0 → t.gen = s.gen ∧
          (t.channel c.toNat).sample = (s.channel c.toNat).sample) ∧
        ∀ d, d ≠ c.toNat → t.channel d = s.channel d
    | .fill w _ => t.ch = s.ch ∧ t.gen.seeded = s.gen.seeded ∧
        (w.toNat ≠ 0 ∧ 8 % w.toNat = 0 → t.halted = s.halted)

/-- The invariant of the block holds right after reset, on a block of any parameters R6 allows. -/
def Obligations.ResetMeetsTheInvariant : Prop :=
  (∀ p : Params, p.wf = true → (State.resetOf p).Inv) ∧ State.reset.Inv

/-- R23, R31, R183: every step keeps the invariant of the block: a configured channel has `rem <= 8 - W` and
`rem mod W == 0`, an unseeded block caches no byte, only a seeded block halts, and the parameters stay as R6
allows. -/
def Obligations.StepKeepsTheInvariant : Prop :=
  ∀ s t : State, s.Inv → step s = .next t → t.Inv

/-- R6, R28: no step changes the parameters of the block. -/
def Obligations.StepKeepsTheParameters : Prop :=
  ∀ s t : State, step s = .next t → t.params = s.params

/-- R25, R30, R37, R210: no command un-seeds the generator, un-configures a channel or ends a halt; only reset
does. `seeded` is set by `SEED` alone, a width is written by `DSCFG` alone, and `halted` is set by `FILL` alone. -/
def Obligations.OnlyResetUndoesAConstruction : Prop :=
  ∀ (i : Instr) (s t : State), exec i s = .next t →
    (s.gen.seeded = true → t.gen.seeded = true) ∧
    (s.halted = true → t.halted = true) ∧
    (∀ d, (s.channel d).w ≠ .notConfigured → (t.channel d).w ≠ .notConfigured) ∧
    (t.gen.seeded ≠ s.gen.seeded → ∃ seed, i = .seed seed) ∧
    (∀ d, (t.channel d).w ≠ (s.channel d).w → ∃ c w, i = .dscfg c w ∧ d = c.toNat) ∧
    (t.halted ≠ s.halted → ∃ w n, i = .fill w n)

/-- R36, R34: no rule reads what the spec leaves unspecified. Two states that differ at most in `mt` before `SEED`
and in samples with no byte left answer alike, and differ no more after the step. -/
def Obligations.UnspecifiedContentsAreNeverRead : Prop :=
  ∀ s u : State, SameSpecified s u →
    match step s, step u with
    | .next t, .next v => SameSpecified t v
    | .fault f, .fault g => f = g
    | .refused q, .refused r => q = r
    | _, _ => False

/-! ## Views -/

/-- R136, R112, R85: the typed views of a beat, for every type but `bool`, and the width of every type. The unsigned
and signed types read the low 8, 16 or 32 bits, or all 64, as they stand and in two's complement; the float types
only name the bits: sign, exponent and fraction put together again are the low 32 bits, or the beat. The encodings
are PRESUMED, as the spec itself says (K3, notes/assumptions/12): no rule of the block rests on them. -/
def Obligations.ViewsChangeNoBit : Prop :=
  (∀ v : Word,
    view .u8 v = .unsigned (v.setWidth 8).toNat ∧ view .u16 v = .unsigned (v.setWidth 16).toNat ∧
    view .u32 v = .unsigned (v.setWidth 32).toNat ∧ view .u64 v = .unsigned v.toNat ∧
    view .i8 v = .signed (v.setWidth 8).toInt ∧ view .i16 v = .signed (v.setWidth 16).toInt ∧
    view .i32 v = .signed (v.setWidth 32).toInt ∧ view .i64 v = .signed v.toInt ∧
    (∃ f : Float32Bits, view .f32 v = .float32 f ∧ (f.sign ++ f.exponent ++ f.fraction : BitVec 32) = v.setWidth 32) ∧
    ∃ f : Float64Bits, view .f64 v = .float64 f ∧ (f.sign ++ f.exponent ++ f.fraction : BitVec 64) = v) ∧
  [ViewType.u8, .u16, .u32, .u64, .i8, .i16, .i32, .i64, .f32, .f64, .bool].map ViewType.width =
    [some .one, some .two, some .four, some .eight, some .one, some .two, some .four, some .eight, some .four,
      some .eight, none]

/-- R85, with the widths of R136: SR's public calls as commands, on every state.
The 64-bit types are `NEXT64`. A narrow type is `DSNEXT c` exactly when channel `c` has the width of the type, and
`DSCFG c, w` with that width, on a block that is not halted and has the channel, makes it so. Filling an array is
`FILL` with the width of the type. `init()` has no command. An OK response is read beat by beat as the type,
ranges as `u64`.
`bool`, whose width SR does not give (R140), takes any narrow channel. The model's choice (notes/assumptions/9):
an array of `bool` is filled with the open width `Config.boolBytes`. -/
def Obligations.PublicCallsAsCommands : Prop :=
  let narrow : List (ViewType × Nat) := [(.u8, 1), (.i8, 1), (.u16, 2), (.i16, 2), (.u32, 4), (.i32, 4), (.f32, 4)]
  let wide : List (ViewType × Nat) := [(.u64, 8), (.i64, 8), (.f64, 8)]
  (∀ r ∈ wide, ∀ c s, Api.expand (.next r.1 c) s = some .next64) ∧
  (∀ r ∈ narrow, ∀ (c : BitVec 8) (s : State),
    (Api.expand (.next r.1 c) s = some (.dsnext c) ↔ (s.channel c.toNat).w.bytes = r.2) ∧
    (Api.expand (.next r.1 c) s = none ↔ (s.channel c.toNat).w.bytes ≠ r.2) ∧
    Api.setup (.next r.1 c) = some (.dscfg c (BitVec.ofNat 4 r.2)) ∧
    (s.halted = false → c.toNat < s.ch.length →
      ∃ t, exec (.dscfg c (BitVec.ofNat 4 r.2)) s = .next t ∧ Api.expand (.next r.1 c) t = some (.dsnext c))) ∧
  (∀ (c : BitVec 8) (s : State), Api.expand (.next .bool c) s =
    if (s.channel c.toNat).w.bytes ∈ [1, 2, 4] then some (.dsnext c) else none) ∧
  (∀ max s, Api.expand (.nextRange max) s = some (.range max)) ∧
  (∀ lo hi s, Api.expand (.nextRange2 lo hi) s = some (.range2 lo hi)) ∧
  (∀ r ∈ narrow ++ wide, ∀ n s, Api.expand (.fillArray r.1 n) s = some (.fill (BitVec.ofNat 4 r.2) n)) ∧
  (∀ n s, Api.expand (.fillArray .bool n) s = some (.fill Config.boolBytes n)) ∧
  (∀ s, Api.expand .init s = none) ∧
  (∀ (t : ViewType) (c : BitVec 8) (n max lo hi : Word) (data : List Word),
    Api.results (.next t c) ⟨.ok, data⟩ = some (data.map (view t)) ∧
    Api.results (.fillArray t n) ⟨.ok, data⟩ = some (data.map (view t)) ∧
    Api.results (.nextRange max) ⟨.ok, data⟩ = some (data.map (view .u64)) ∧
    Api.results (.nextRange2 lo hi) ⟨.ok, data⟩ = some (data.map (view .u64)))
end

