-- ==== Sys2Proof/Laws/Decode.lean ====
section
/-! SUPPORT. What the decoder can do. -/

namespace Sys2Proof

/-- The tests of the parameters pass exactly for the commands the block has. -/
theorem checkParams_ok_iff (p : Params) (i j : Instr) :
    checkParams p i = .ok j ↔ i = j ∧ i.wellFormed p = true := by
  cases i <;> simp only [checkParams, Instr.wellFormed] <;> (try split) <;> simp_all

theorem decode_ok_iff (p : Params) (c : Command) (i : Instr) :
    decode p c = .ok i ↔ decodeFields c = .ok i ∧ i.wellFormed p = true := by
  unfold decode
  split
  · rename_i j h
    rw [checkParams_ok_iff, h]
    constructor
    · rintro ⟨rfl, hw⟩; exact ⟨rfl, hw⟩
    · rintro ⟨h, hw⟩; cases h; exact ⟨rfl, hw⟩
  · rename_i e h; simp [h]

end Sys2Proof
end

