-- ==== Sys2Proof/Laws/State.lean ====
section
/-! SUPPORT. One lemma per field per update of the state. -/

namespace Sys2Proof.Machine

variable (s : State)

@[simp] theorem State.withGen_gen (g : Gen) : (s.withGen g).gen = g := rfl
@[simp] theorem State.withGen_halted (g : Gen) : (s.withGen g).halted = s.halted := rfl
@[simp] theorem State.withGen_ch (g : Gen) : (s.withGen g).ch = s.ch := rfl
@[simp] theorem State.withGen_hasRange (g : Gen) : (s.withGen g).hasRange = s.hasRange := rfl
@[simp] theorem State.withGen_hasFill (g : Gen) : (s.withGen g).hasFill = s.hasFill := rfl
@[simp] theorem State.withGen_inputs (g : Gen) : (s.withGen g).inputs = s.inputs := rfl
@[simp] theorem State.withGen_responses (g : Gen) : (s.withGen g).responses = s.responses := rfl
@[simp] theorem State.withGen_params (g : Gen) : (s.withGen g).params = s.params := rfl
@[simp] theorem State.withGen_channel (g : Gen) (d : Nat) : (s.withGen g).channel d = s.channel d := rfl

@[simp] theorem State.withHalted_gen : (s.withHalted).gen = s.gen := rfl
@[simp] theorem State.withHalted_halted : (s.withHalted).halted = true := rfl
@[simp] theorem State.withHalted_ch : (s.withHalted).ch = s.ch := rfl
@[simp] theorem State.withHalted_hasRange : (s.withHalted).hasRange = s.hasRange := rfl
@[simp] theorem State.withHalted_hasFill : (s.withHalted).hasFill = s.hasFill := rfl
@[simp] theorem State.withHalted_inputs : (s.withHalted).inputs = s.inputs := rfl
@[simp] theorem State.withHalted_responses : (s.withHalted).responses = s.responses := rfl
@[simp] theorem State.withHalted_params : (s.withHalted).params = s.params := rfl
@[simp] theorem State.withHalted_channel (d : Nat) : (s.withHalted).channel d = s.channel d := rfl

@[simp] theorem State.withChannel_gen (c : Nat) (k : Channel) : (s.withChannel c k).gen = s.gen := rfl
@[simp] theorem State.withChannel_halted (c : Nat) (k : Channel) : (s.withChannel c k).halted = s.halted := rfl
@[simp] theorem State.withChannel_ch (c : Nat) (k : Channel) : (s.withChannel c k).ch = s.ch.set c k := rfl
@[simp] theorem State.withChannel_hasRange (c : Nat) (k : Channel) : (s.withChannel c k).hasRange = s.hasRange := rfl
@[simp] theorem State.withChannel_hasFill (c : Nat) (k : Channel) : (s.withChannel c k).hasFill = s.hasFill := rfl
@[simp] theorem State.withChannel_inputs (c : Nat) (k : Channel) : (s.withChannel c k).inputs = s.inputs := rfl
@[simp] theorem State.withChannel_responses (c : Nat) (k : Channel) : (s.withChannel c k).responses = s.responses := rfl
@[simp] theorem State.withChannel_params (c : Nat) (k : Channel) : (s.withChannel c k).params = s.params := by
  simp [State.params]

@[simp] theorem State.withInputs_gen (is : List Input) : (s.withInputs is).gen = s.gen := rfl
@[simp] theorem State.withInputs_halted (is : List Input) : (s.withInputs is).halted = s.halted := rfl
@[simp] theorem State.withInputs_ch (is : List Input) : (s.withInputs is).ch = s.ch := rfl
@[simp] theorem State.withInputs_hasRange (is : List Input) : (s.withInputs is).hasRange = s.hasRange := rfl
@[simp] theorem State.withInputs_hasFill (is : List Input) : (s.withInputs is).hasFill = s.hasFill := rfl
@[simp] theorem State.withInputs_inputs (is : List Input) : (s.withInputs is).inputs = is := rfl
@[simp] theorem State.withInputs_responses (is : List Input) : (s.withInputs is).responses = s.responses := rfl
@[simp] theorem State.withInputs_params (is : List Input) : (s.withInputs is).params = s.params := rfl
@[simp] theorem State.withInputs_channel (is : List Input) (d : Nat) : (s.withInputs is).channel d = s.channel d := rfl

@[simp] theorem State.answer_gen (r : Response) : (s.answer r).gen = s.gen := rfl
@[simp] theorem State.answer_halted (r : Response) : (s.answer r).halted = s.halted := rfl
@[simp] theorem State.answer_ch (r : Response) : (s.answer r).ch = s.ch := rfl
@[simp] theorem State.answer_hasRange (r : Response) : (s.answer r).hasRange = s.hasRange := rfl
@[simp] theorem State.answer_hasFill (r : Response) : (s.answer r).hasFill = s.hasFill := rfl
@[simp] theorem State.answer_inputs (r : Response) : (s.answer r).inputs = s.inputs := rfl
@[simp] theorem State.answer_responses (r : Response) : (s.answer r).responses = s.responses ++ [r] := rfl
@[simp] theorem State.answer_params (r : Response) : (s.answer r).params = s.params := rfl
@[simp] theorem State.answer_channel (r : Response) (d : Nat) : (s.answer r).channel d = s.channel d := rfl

@[simp] theorem State.present_gen (c : Command) : (s.present c).gen = s.gen := rfl
@[simp] theorem State.present_halted (c : Command) : (s.present c).halted = s.halted := rfl
@[simp] theorem State.present_ch (c : Command) : (s.present c).ch = s.ch := rfl
@[simp] theorem State.present_hasRange (c : Command) : (s.present c).hasRange = s.hasRange := rfl
@[simp] theorem State.present_hasFill (c : Command) : (s.present c).hasFill = s.hasFill := rfl
@[simp] theorem State.present_inputs (c : Command) : (s.present c).inputs = .command c :: s.inputs := rfl
@[simp] theorem State.present_responses (c : Command) : (s.present c).responses = s.responses := rfl
@[simp] theorem State.present_params (c : Command) : (s.present c).params = s.params := rfl
@[simp] theorem State.present_channel (c : Command) (d : Nat) : (s.present c).channel d = s.channel d := rfl

@[simp] theorem State.applyReset_gen : (s.applyReset).gen = Gen.atReset := rfl
@[simp] theorem State.applyReset_halted : (s.applyReset).halted = false := rfl
@[simp] theorem State.applyReset_ch : (s.applyReset).ch = List.replicate s.ch.length Channel.atReset := rfl
@[simp] theorem State.applyReset_hasRange : (s.applyReset).hasRange = s.hasRange := rfl
@[simp] theorem State.applyReset_hasFill : (s.applyReset).hasFill = s.hasFill := rfl
@[simp] theorem State.applyReset_inputs : (s.applyReset).inputs = s.inputs := rfl
@[simp] theorem State.applyReset_responses : (s.applyReset).responses = s.responses := rfl
@[simp] theorem State.applyReset_params : (s.applyReset).params = s.params := by
  simp [State.params]

@[simp] theorem State.params_nch : s.params.nch = s.ch.length := rfl
@[simp] theorem State.params_hasRange : s.params.hasRange = s.hasRange := rfl
@[simp] theorem State.params_hasFill : s.params.hasFill = s.hasFill := rfl

theorem State.withChannel_channel_same (c : Nat) (k : Channel) (h : c < s.ch.length) :
    (s.withChannel c k).channel c = k := by
  simp [State.channel, h]

theorem State.withChannel_channel_other (c d : Nat) (k : Channel) (h : c ≠ d) :
    (s.withChannel c k).channel d = s.channel d := by
  simp [State.channel, List.getD_eq_getElem?_getD, List.getElem?_set_ne h]

theorem State.channel_eq_getElem (c : Nat) (h : c < s.ch.length) : s.channel c = s.ch[c] := by
  simp [State.channel, h]

theorem State.channel_mem (c : Nat) (h : c < s.ch.length) : s.channel c ∈ s.ch := by
  rw [State.channel_eq_getElem s c h]; exact List.getElem_mem h

end Sys2Proof.Machine
end

