-- ==== Sys2Proof/Laws/Ops.lean ====
section
/-! SUPPORT. What the shared operations can do: how a command ends, the gates, the draw, the seed expansion and
the twist. -/

namespace Sys2Proof.Machine

/-! ## How a command ends -/

@[simp] theorem respond_eq (data : List Word) (s : State) : respond data s = .next (s.answer ⟨.ok, data⟩) := rfl

@[simp] theorem raise_eq (f : Status) (s : State) : raise f s = .next (s.answer ⟨f, []⟩) := rfl

@[simp] theorem raiseContractViolation_eq (s : State) :
    raiseContractViolation s = .next (s.withHalted.answer ⟨.contractViolation, []⟩) := rfl

/-! ## The gates -/

theorem commandGate_halted (i : Instr) (body : State → Result) (s : State) (h : s.halted = true) :
    commandGate i body s = .next (s.answer ⟨.halted, []⟩) := by
  simp [commandGate, h]

theorem commandGate_illegal (i : Instr) (body : State → Result) (s : State) (h : s.halted = false)
    (hw : i.wellFormed s.params = false) : commandGate i body s = .next (s.answer ⟨.illegalCommand, []⟩) := by
  simp [commandGate, h, hw]

theorem commandGate_pass (i : Instr) (body : State → Result) (s : State) (h : s.halted = false)
    (hw : i.wellFormed s.params = true) : commandGate i body s = body s := by
  simp [commandGate, h, hw]

/-- The three things the gate can do. -/
theorem commandGate_cases (i : Instr) (body : State → Result) (s : State) :
    (s.halted = true ∧ commandGate i body s = .next (s.answer ⟨.halted, []⟩)) ∨
    (s.halted = false ∧ i.wellFormed s.params = false ∧
      commandGate i body s = .next (s.answer ⟨.illegalCommand, []⟩)) ∨
    (s.halted = false ∧ i.wellFormed s.params = true ∧ commandGate i body s = body s) := by
  cases hh : s.halted
  · cases hw : i.wellFormed s.params
    · exact .inr (.inl ⟨rfl, rfl, commandGate_illegal i body s hh hw⟩)
    · exact .inr (.inr ⟨rfl, rfl, commandGate_pass i body s hh hw⟩)
  · exact .inl ⟨rfl, commandGate_halted i body s hh⟩

theorem needSeeded_pass (body : State → Result) (s : State) (h : s.gen.seeded = true) :
    needSeeded body s = body s := by
  simp [needSeeded, h]

theorem needSeeded_fault (body : State → Result) (s : State) (h : s.gen.seeded = false) :
    needSeeded body s = .next (s.answer ⟨.notSeeded, []⟩) := by
  simp [needSeeded, h]

/-! ## The draw -/

theorem wordToDraw_of_lt (g : Gen) (h : g.idx.val < 312) : wordToDraw g = (g.mt, ⟨g.idx.val, h⟩) := by
  simp [wordToDraw, h]

theorem wordToDraw_of_full (g : Gen) (h : g.idx.val = 312) : wordToDraw g = (twist g.mt, 0) := by
  simp [wordToDraw, h]

/-- A draw that does not run the twist takes word `idx` and adds 1 to it. -/
theorem draw_of_lt (g : Gen) (h : g.idx.val < 312) :
    draw g = (temper (g.mt[g.idx.val]'h), { g with idx := ⟨g.idx.val + 1, by omega⟩ }) := by
  simp [draw, wordToDraw_of_lt g h, Fin.succ]

/-- A draw at `idx = 312` runs the twist and takes the new word 0. -/
theorem draw_of_full (g : Gen) (h : g.idx.val = 312) :
    draw g = (temper ((twist g.mt)[0]), { g with mt := twist g.mt, idx := 1 }) := by
  simp [draw, wordToDraw_of_full g h]

@[simp] theorem draw_seeded (g : Gen) : (draw g).2.seeded = g.seeded := rfl

@[simp] theorem genAfter_seeded (k : Nat) (g : Gen) : (genAfter k g).seeded = g.seeded := by
  induction k with
  | zero => rfl
  | succ k ih => simp [genAfter, ih]

theorem genAfter_add (j k : Nat) (g : Gen) : genAfter (j + k) g = genAfter j (genAfter k g) := by
  induction j with
  | zero => simp [genAfter]
  | succ j ih => rw [Nat.succ_add, genAfter, ih, genAfter]

theorem genAfter_succ' (k : Nat) (g : Gen) : genAfter (k + 1) g = genAfter k (draw g).2 := by
  rw [genAfter_add k 1]; rfl

theorem drawAt_succ (k : Nat) (g : Gen) : drawAt g (k + 1) = drawAt (draw g).2 k := by
  simp only [drawAt, genAfter_succ']

/-! ## The seed expansion -/

theorem seedWords_getElem_zero (n i : Nat) (p : Word) : (seedWords (n + 1) i p)[0]'(by simp [seedWords]) = p := rfl

/-- Each word of the expansion is made from the word before it (R101). -/
theorem seedWords_getElem_succ (n i : Nat) (p : Word) (j : Nat) (h : j + 1 < n) :
    (seedWords n i p)[j + 1]'(by rw [seedWords_length]; exact h) =
      seedMultiplier * ((seedWords n i p)[j]'(by rw [seedWords_length]; omega) ^^^
        ((seedWords n i p)[j]'(by rw [seedWords_length]; omega) >>> 62)) + BitVec.ofNat 64 (i + j + 1) := by
  induction n generalizing i p j with
  | zero => omega
  | succ n ih =>
    cases j with
    | zero =>
      obtain ⟨m, rfl⟩ : ∃ m, n = m + 1 := ⟨n - 1, by omega⟩
      rfl
    | succ j =>
      have := ih (i + 1) (seedMultiplier * (p ^^^ (p >>> 62)) + BitVec.ofNat 64 (i + 1)) j (by omega)
      simp only [seedWords, List.getElem_cons_succ]
      rw [this, show i + 1 + j + 1 = i + (j + 1) + 1 by omega]

@[simp] theorem seedGen_idx (seed : Word) : (seedGen seed).idx = 312 := rfl

@[simp] theorem seedGen_seeded (seed : Word) : (seedGen seed).seeded = true := rfl

end Sys2Proof.Machine
end

