-- ==== Sys2Proof/Laws/Range.lean ====
section
/-! SUPPORT. What the rejection loop can do. -/

namespace Sys2Proof.Machine

/-- The rejection test in 64-bit words is the test on unbounded integers: nothing borrows. -/
theorem rejects_iff_int (max raw : Word) : rejects max raw = true ↔ RejectsInt max.toNat raw.toNat := by
  have hr : raw % max ≤ raw := by rw [BitVec.le_def, BitVec.toNat_umod]; exact Nat.mod_le ..
  have hm : max ≤ u64Max := by rw [BitVec.le_def]; exact Nat.le_of_lt_succ max.isLt
  have hmod : ((raw.toNat : Int) % max.toNat) = ((raw.toNat % max.toNat : Nat) : Int) := rfl
  have hle := Nat.mod_le raw.toNat max.toNat
  have hlt := max.isLt
  simp only [rejects, RejectsInt, decide_eq_true_eq, gt_iff_lt, BitVec.lt_def, BitVec.toNat_sub_of_le hr,
    BitVec.toNat_sub_of_le hm, BitVec.toNat_umod, hmod, show u64Max.toNat = 2 ^ 64 - 1 from rfl]
  omega

theorem acceptedAfter_iff_int (max : Word) (g : Gen) (k : Nat) :
    AcceptedAfter max g k ↔ AcceptedAfterInt max.toNat g k := by
  simp [AcceptedAfter, AcceptedAfterInt, ← rejects_iff_int]

/-- The loop answers the first accepted draw, when it comes before the fuel ends. -/
theorem drawInRange_of_accepted (fuel : Nat) (max : Word) (g : Gen) (k : Nat) (hk : k < fuel)
    (h : AcceptedAfter max g k) :
    drawInRange fuel max g = some (drawAt g k % max, genAfter (k + 1) g) := by
  induction fuel generalizing g k with
  | zero => omega
  | succ fuel ih =>
    cases k with
    | zero =>
      have h0 : rejects max (draw g).1 = false := h.2
      simp [drawInRange, h0, drawAt, genAfter]
    | succ k =>
      have h0 : rejects max (draw g).1 = true := h.1 0 (by omega)
      have := ih (draw g).2 k (by omega) ⟨fun j hj => by
        rw [← drawAt_succ]; exact h.1 (j + 1) (by omega), by rw [← drawAt_succ]; exact h.2⟩
      simp [drawInRange, h0, this, drawAt_succ, genAfter_succ' (k + 1)]

/-- The loop has no answer exactly when every draw it tried is rejected. -/
theorem drawInRange_none_iff (fuel : Nat) (max : Word) (g : Gen) :
    drawInRange fuel max g = none ↔ ∀ j < fuel, rejects max (drawAt g j) = true := by
  induction fuel generalizing g with
  | zero => simp [drawInRange]
  | succ fuel ih =>
    cases h0 : rejects max (draw g).1 with
    | false =>
      simp only [drawInRange, h0]
      refine ⟨fun h => by simp at h, fun h => ?_⟩
      have := h 0 (by omega)
      simp [drawAt, genAfter, h0] at this
    | true =>
      simp only [drawInRange, h0, if_true, ih]
      refine ⟨fun h j hj => ?_, fun h j hj => ?_⟩
      · cases j with
        | zero => exact h0
        | succ j => rw [drawAt_succ]; exact h j (by omega)
      · rw [← drawAt_succ]; exact h (j + 1) (by omega)

/-- What an answer of the loop is: some number of rejected draws and then an accepted one. -/
theorem drawInRange_some (fuel : Nat) (max : Word) (g : Gen) (v : Word) (g' : Gen)
    (h : drawInRange fuel max g = some (v, g')) :
    ∃ k < fuel, AcceptedAfter max g k ∧ v = drawAt g k % max ∧ g' = genAfter (k + 1) g := by
  by_cases hn : ∃ k < fuel, rejects max (drawAt g k) = false
  · classical
    obtain ⟨hk, hacc⟩ := Nat.find_spec hn
    have hfirst : AcceptedAfter max g (Nat.find hn) := by
      refine ⟨fun j hj => ?_, hacc⟩
      have := Nat.find_min hn hj
      simp only [not_and, Bool.not_eq_false] at this
      exact this (by omega)
    have := drawInRange_of_accepted fuel max g _ hk hfirst
    rw [h] at this
    simp only [Option.some.injEq, Prod.mk.injEq] at this
    exact ⟨_, hk, hfirst, this.1, this.2⟩
  · have : drawInRange fuel max g = none := (drawInRange_none_iff fuel max g).2 fun j hj => by
      simp only [not_exists, not_and, Bool.not_eq_false] at hn; exact hn j hj
    simp [this] at h

/-- The limit of the loop, for arguments that count states; no proof need evaluate it. -/
theorem drawLimit_ge (g : Gen) : 2 ^ 20000 ≤ drawLimit g := by
  unfold drawLimit
  exact Nat.le_add_right _ _

/-! ## The limit caps no run that would complete -/

/-- GEN as a tuple of finite types, to count its states. -/
def Gen.tuple (g : Gen) : (Fin 312 → Fin (2 ^ 64)) × Fin 313 × Bool :=
  (fun i => g.mt[i.val].toFin, g.idx, g.seeded)

theorem Gen.tuple_injective : Function.Injective Gen.tuple := by
  rintro ⟨m, i, b⟩ ⟨m', i', b'⟩ h
  simp only [Gen.tuple, Prod.mk.injEq] at h
  obtain ⟨hm, rfl, rfl⟩ := h
  congr
  ext j hj
  rw [BitVec.eq_of_toFin_eq (congrFun hm ⟨j, hj⟩)]

/-- GEN has at most `2^(64 * 312) * 2^10` states; the exponent is a variable, so that nothing evaluates it. -/
theorem card_tuple_le (e : Nat) (he : e = 64 * 312) :
    Fintype.card ((Fin 312 → Fin (2 ^ 64)) × Fin 313 × Bool) ≤ 2 ^ e * 2 ^ 10 := by
  rw [Fintype.card_prod, Fintype.card_prod, Fintype.card_fun, Fintype.card_fin, Fintype.card_fin, Fintype.card_fin,
    Fintype.card_bool, ← pow_mul, ← he]
  exact Nat.mul_le_mul_left _ (by norm_num)

/-- Among more draws than GEN has states, two leave the same GEN. -/
theorem genAfter_repeats (n : Nat) (hn : Fintype.card ((Fin 312 → Fin (2 ^ 64)) × Fin 313 × Bool) < n) (g : Gen) :
    ∃ i j, i < j ∧ j < n ∧ genAfter i g = genAfter j g := by
  obtain ⟨a, b, hab, h⟩ :=
    Fintype.exists_ne_map_eq_of_card_lt (fun k : Fin n => (genAfter k.val g).tuple) (by rwa [Fintype.card_fin])
  have h := Gen.tuple_injective h
  rcases Nat.lt_or_gt_of_ne (fun e => hab (Fin.ext e) : a.val ≠ b.val) with hlt | hlt
  · exact ⟨_, _, hlt, b.isLt, h⟩
  · exact ⟨_, _, hlt, a.isLt, h.symm⟩

theorem card_tuple_lt_limit (e f : Nat) (he : e = 64 * 312) (hf : e + 10 < f) :
    Fintype.card ((Fin 312 → Fin (2 ^ 64)) × Fin 313 × Bool) < 2 ^ f := by
  refine lt_of_le_of_lt (card_tuple_le e he) ?_
  rw [← pow_add]
  exact Nat.pow_lt_pow_right (by decide) hf

/-- When as many draws as the limit are rejected, every later draw is. -/
theorem rejects_forever (max : Word) (g : Gen) (h : ∀ j < drawLimit g, rejects max (drawAt g j) = true) (k : Nat) :
    rejects max (drawAt g k) = true := by
  obtain ⟨i, j, hij, hj, he⟩ := genAfter_repeats _ (card_tuple_lt_limit _ 20000 rfl (by decide)) g
  have hl := drawLimit_ge g
  have hper : ∀ d, genAfter (d + i) g = genAfter (d + j) g := fun d => by rw [genAfter_add, genAfter_add, he]
  induction k using Nat.strong_induction_on with
  | _ k ih =>
    by_cases hk : k < j
    · exact h k (lt_of_lt_of_le (lt_trans hk hj) hl)
    · have := ih (k - j + i) (by omega)
      unfold drawAt at this ⊢
      rw [hper, show k - j + j = k by omega] at this
      exact this

/-- The first accepted draw comes before the limit. -/
theorem accepted_lt_drawLimit (max : Word) (g : Gen) (k : Nat) (h : AcceptedAfter max g k) : k < drawLimit g := by
  by_contra hk
  have := rejects_forever max g (fun j hj => h.1 j (by omega)) k
  rw [h.2] at this
  cases this

/-- Where some draw is accepted there is a first one. -/
theorem exists_first_accepted (max : Word) (g : Gen) (k : Nat) (h : rejects max (drawAt g k) = false) :
    ∃ j, AcceptedAfter max g j := by
  classical
  have hex : ∃ k, rejects max (drawAt g k) = false := ⟨k, h⟩
  refine ⟨Nat.find hex, fun j hj => ?_, Nat.find_spec hex⟩
  simpa using Nat.find_min hex hj

end Sys2Proof.Machine
end

