-- ==== Sys2Proof/Laws/Windows.lean ====
section
/-! SUPPORT. What the shift-and-slice operations can do: the width check, the refill and the window. -/

namespace Sys2Proof.Machine

/-- The width check of R131: a field is legal when it divides 8, and then the register holds its value. -/
theorem widthOfField_some (wb : BitVec 4) (w : Width) (h : widthOfField wb = some w) :
    w.bytes = wb.toNat ∧ w ≠ .notConfigured := by
  revert h; revert w wb; decide

theorem widthOfField_none_iff (wb : BitVec 4) :
    widthOfField wb = none ↔ wb.toNat = 0 ∨ 8 % wb.toNat ≠ 0 := by
  revert wb; decide

@[simp] theorem Channel.configured_w (w : Width) (x : Word) : (Channel.configured w x).w = w := rfl

@[simp] theorem Channel.configured_rem (w : Width) (x : Word) : (Channel.configured w x).rem = 0 := rfl

@[simp] theorem Channel.configured_sample (w : Width) (x : Word) : (Channel.configured w x).sample = x := rfl

theorem refill_of_rem_zero (k : Channel) (g : Gen) (h : k.rem = 0) :
    refill k g = ({ k with rem := 8, sample := (draw g).1 }, (draw g).2) := by
  simp [refill, h]

theorem refill_of_rem_pos (k : Channel) (g : Gen) (h : k.rem ≠ 0) : refill k g = (k, g) := by
  simp [refill, h]

@[simp] theorem refill_w (k : Channel) (g : Gen) : (refill k g).1.w = k.w := by
  unfold refill; split <;> rfl

@[simp] theorem refill_seeded (k : Channel) (g : Gen) : (refill k g).2.seeded = g.seeded := by
  unfold refill; split <;> rfl

@[simp] theorem takeWindow_w (k : Channel) (g : Gen) : (takeWindow k g).2.1.w = k.w := by
  simp [takeWindow]

@[simp] theorem takeWindow_gen (k : Channel) (g : Gen) : (takeWindow k g).2.2 = (refill k g).2 := rfl

@[simp] theorem takeWindow_sample (k : Channel) (g : Gen) : (takeWindow k g).2.1.sample = (refill k g).1.sample := rfl

theorem takeWindow_rem (k : Channel) (g : Gen) :
    (takeWindow k g).2.1.rem.val = (refill k g).1.rem.val - k.w.bytes := by
  simp [takeWindow]

theorem takeWindow_value (k : Channel) (g : Gen) :
    (takeWindow k g).1 = window k.w ((refill k g).1.rem.val - k.w.bytes) (refill k g).1.sample := by
  simp [takeWindow]

/-- A window makes one draw when no byte is left and none otherwise (R134). -/
theorem takeWindow_draws (k : Channel) (g : Gen) :
    (takeWindow k g).2.2 = genAfter (if k.rem = 0 then 1 else 0) g := by
  by_cases h : k.rem = 0
  · simp [h, refill_of_rem_zero, genAfter]
  · simp [h, refill_of_rem_pos, genAfter]

/-- A window keeps the channel's invariant (R31). -/
theorem takeWindow_inv (k : Channel) (g : Gen) (hw : k.w ≠ .notConfigured) (h : k.Inv) :
    (takeWindow k g).2.1.Inv := by
  simp only [Channel.Inv, takeWindow_w, takeWindow_rem, if_neg hw] at h ⊢
  by_cases hr : k.rem = 0
  · rw [refill_of_rem_zero k g hr]
    cases hk : k.w <;> simp_all [Width.bytes]
  · rw [refill_of_rem_pos k g hr]
    revert h hr
    generalize k.rem = r
    revert r
    cases hk : k.w <;> first | exact absurd hk hw | decide

/-- A window as a number: shift, then keep `W` bytes (R53). -/
theorem window_toNat (w : Width) (rem : Nat) (sample : Word) :
    (window w rem sample).toNat = sample.toNat / 2 ^ (rem * 8) % 2 ^ (8 * w.bytes) := by
  have hw : 8 * w.bytes ≤ 64 := by cases w <;> decide
  have : sample.toNat / 2 ^ (rem * 8) % 2 ^ (8 * w.bytes) < 2 ^ 64 :=
    lt_of_lt_of_le (Nat.mod_lt _ (by positivity)) (Nat.pow_le_pow_right (by decide) hw)
  simp only [window, BitVec.toNat_setWidth, BitVec.toNat_ushiftRight, Nat.shiftRight_eq_div_pow]
  exact Nat.mod_eq_of_lt this

@[simp] theorem takeWindows_length (n : Nat) (k : Channel) (g : Gen) : (takeWindows n k g).1.length = n := by
  induction n generalizing k g with
  | zero => rfl
  | succ n ih => simp [takeWindows, ih]

@[simp] theorem takeWindows_seeded (n : Nat) (k : Channel) (g : Gen) :
    (takeWindows n k g).2.seeded = g.seeded := by
  induction n generalizing k g with
  | zero => rfl
  | succ n ih => simp [takeWindows, ih]

/-- The first window of a row of windows, and the rest of them. -/
theorem takeWindows_succ (n : Nat) (k : Channel) (g : Gen) :
    takeWindows (n + 1) k g =
      ((takeWindow k g).1 :: (takeWindows n (takeWindow k g).2.1 (takeWindow k g).2.2).1,
        (takeWindows n (takeWindow k g).2.1 (takeWindow k g).2.2).2) := rfl

end Sys2Proof.Machine
end

