-- ==== Sys2Proof/Laws/Exec.lean ====
section
/-! SUPPORT. What a command can do, said once: how each meaning goes on once the tests of R188 that all commands
share have passed, the four things `exec` can do, and the next states it can answer, as an induction rule. -/

namespace Sys2Proof.Machine

/-- The end of a range command: the endless loop, or the first accepted draw. -/
theorem respondInRange_cases (base max : Word) (s : State) :
    (respondInRange base max s = .fault .rejectsForever ∧ ∀ j < drawLimit s.gen, rejects max (drawAt s.gen j) = true) ∨
    ∃ k < drawLimit s.gen, AcceptedAfter max s.gen k ∧
      respondInRange base max s =
        .next ((s.withGen (genAfter (k + 1) s.gen)).answer ⟨.ok, [drawAt s.gen k % max + base]⟩) := by
  unfold respondInRange
  cases h : drawInRange (drawLimit s.gen) max s.gen with
  | none => exact .inl ⟨rfl, (drawInRange_none_iff _ _ _).1 h⟩
  | some p =>
    obtain ⟨v, g⟩ := p
    obtain ⟨k, hk, ha, rfl, rfl⟩ := drawInRange_some _ _ _ _ _ h
    exact .inr ⟨k, hk, ha, rfl⟩

/-- The end of a range command whose first accepted draw is known. -/
theorem respondInRange_of_accepted (base max : Word) (s : State) (k : Nat) (hk : k < drawLimit s.gen)
    (h : AcceptedAfter max s.gen k) :
    respondInRange base max s =
      .next ((s.withGen (genAfter (k + 1) s.gen)).answer ⟨.ok, [drawAt s.gen k % max + base]⟩) := by
  simp [respondInRange, drawInRange_of_accepted (drawLimit s.gen) max s.gen k hk h]

/-- How a command goes on once tests 1 to 3 of R188 have passed. -/
def execOpen (i : Instr) (s : State) : Result :=
  match i with
  | .seed seed => respond [] (s.withGen (seedGen seed))
  | .next64 => respond [(draw s.gen).1] (s.withGen (draw s.gen).2)
  | .range max => if max = 0 then raise .invalidArgument s else respondInRange 0 max s
  | .range2 min max => if min ≥ max then raise .invalidArgument s else respondInRange min (max - min) s
  | .dscfg c wb =>
    match widthOfField wb with
    | none => raise .invalidArgument s
    | some w => respond [] (s.withChannel c.toNat (Channel.configured w (s.channel c.toNat).sample))
  | .dsnext c =>
    if (s.channel c.toNat).w = .notConfigured then raise .notConfigured s
    else
      respond [(takeWindow (s.channel c.toNat) s.gen).1]
        ((s.withChannel c.toNat (takeWindow (s.channel c.toNat) s.gen).2.1).withGen
          (takeWindow (s.channel c.toNat) s.gen).2.2)
  | .fill wb n =>
    match widthOfField wb with
    | none => raiseContractViolation s
    | some w =>
      respond (takeWindows n.toNat (Channel.configured w 0) s.gen).1
        (s.withGen (takeWindows n.toNat (Channel.configured w 0) s.gen).2)

theorem ready_dscfg (c : BitVec 8) (w : BitVec 4) (s : State) (h : s.halted = false) (hc : c.toNat < s.ch.length) :
    Ready (.dscfg c w) s :=
  ⟨h, decide_eq_true hc, by simp [Instr.draws]⟩

theorem ready_dsnext (c : BitVec 8) (s : State) (h : s.halted = false) (hc : c.toNat < s.ch.length)
    (hs : s.gen.seeded = true) : Ready (.dsnext c) s :=
  ⟨h, decide_eq_true hc, fun _ => hs⟩

theorem ready_fill (w : BitVec 4) (n : Word) (s : State) (h : s.halted = false) (hf : s.hasFill = true)
    (hs : s.gen.seeded = true) : Ready (.fill w n) s :=
  ⟨h, hf, fun _ => hs⟩

theorem ready_range (max : Word) (s : State) (h : s.halted = false) (hr : s.hasRange = true)
    (hs : s.gen.seeded = true) : Ready (.range max) s :=
  ⟨h, hr, fun _ => hs⟩

theorem ready_range2 (min max : Word) (s : State) (h : s.halted = false) (hr : s.hasRange = true)
    (hs : s.gen.seeded = true) : Ready (.range2 min max) s :=
  ⟨h, hr, fun _ => hs⟩

theorem ready_next64 (s : State) (h : s.halted = false) (hs : s.gen.seeded = true) : Ready .next64 s :=
  ⟨h, rfl, fun _ => hs⟩

theorem ready_seed (x : Word) (s : State) (h : s.halted = false) : Ready (.seed x) s :=
  ⟨h, rfl, by simp [Instr.draws]⟩

theorem exec_of_halted (i : Instr) (s : State) (h : s.halted = true) :
    exec i s = .next (s.answer ⟨.halted, []⟩) := by
  cases i <;>
    simp only [exec, execSeed, execNext64, execRange, execRange2, execDscfg, execDsnext, execFill] <;>
    exact commandGate_halted _ _ _ h

theorem exec_of_illegal (i : Instr) (s : State) (h : s.halted = false) (hw : i.wellFormed s.params = false) :
    exec i s = .next (s.answer ⟨.illegalCommand, []⟩) := by
  cases i <;>
    simp only [exec, execSeed, execNext64, execRange, execRange2, execDscfg, execDsnext, execFill] <;>
    exact commandGate_illegal _ _ _ h hw

theorem exec_of_unseeded (i : Instr) (s : State) (h : s.halted = false) (hw : i.wellFormed s.params = true)
    (hd : i.draws = true) (hs : s.gen.seeded = false) : exec i s = .next (s.answer ⟨.notSeeded, []⟩) := by
  cases i with
  | seed _ => exact absurd hd (by simp [Instr.draws])
  | dscfg _ _ => exact absurd hd (by simp [Instr.draws])
  | _ =>
    simp only [exec, execNext64, execRange, execRange2, execDsnext, execFill]
    rw [commandGate_pass _ _ _ h hw, needSeeded_fault _ _ hs]

theorem exec_of_ready (i : Instr) (s : State) (h : Ready i s) : exec i s = execOpen i s := by
  obtain ⟨hh, hw, hs⟩ := h
  cases i with
  | seed seed => simp only [exec, execSeed]; exact commandGate_pass _ _ _ hh hw
  | dscfg c w => simp only [exec, execDscfg]; exact commandGate_pass _ _ _ hh hw
  | next64 => simp only [exec, execNext64]; rw [commandGate_pass _ _ _ hh hw, needSeeded_pass _ _ (hs rfl)]; rfl
  | range max => simp only [exec, execRange]; rw [commandGate_pass _ _ _ hh hw, needSeeded_pass _ _ (hs rfl)]; rfl
  | range2 min max => simp only [exec, execRange2]; rw [commandGate_pass _ _ _ hh hw, needSeeded_pass _ _ (hs rfl)]; rfl
  | dsnext c => simp only [exec, execDsnext]; rw [commandGate_pass _ _ _ hh hw, needSeeded_pass _ _ (hs rfl)]; rfl
  | fill w n => simp only [exec, execFill]; rw [commandGate_pass _ _ _ hh hw, needSeeded_pass _ _ (hs rfl)]; rfl

/-- The four things a command can do: answer `HALTED`, `ILLEGAL_COMMAND` or `NOT_SEEDED`, or go on. -/
theorem exec_cases (i : Instr) (s : State) :
    (s.halted = true ∧ exec i s = .next (s.answer ⟨.halted, []⟩)) ∨
    (s.halted = false ∧ i.wellFormed s.params = false ∧ exec i s = .next (s.answer ⟨.illegalCommand, []⟩)) ∨
    (s.halted = false ∧ i.wellFormed s.params = true ∧ i.draws = true ∧ s.gen.seeded = false ∧
      exec i s = .next (s.answer ⟨.notSeeded, []⟩)) ∨
    (Ready i s ∧ exec i s = execOpen i s) := by
  cases hh : s.halted
  · cases hw : i.wellFormed s.params
    · exact .inr (.inl ⟨rfl, rfl, exec_of_illegal i s hh hw⟩)
    · by_cases hd : i.draws = true ∧ s.gen.seeded = false
      · exact .inr (.inr (.inl ⟨rfl, rfl, hd.1, hd.2, exec_of_unseeded i s hh hw hd.1 hd.2⟩))
      · have hr : Ready i s := ⟨hh, hw, fun h => by simpa [h] using hd⟩
        exact .inr (.inr (.inr ⟨hr, exec_of_ready i s hr⟩))
  · exact .inl ⟨rfl, exec_of_halted i s hh⟩

/-- Every next state a command can answer, as a rule to prove something of all of them: a fault other than a
contract violation, a contract violation, and one case for each command that ends with `OK`. -/
theorem exec_next_ind {P : Instr → State → State → Prop}
    (hFault : ∀ i s f, f ≠ .ok → f ≠ .contractViolation → P i s (s.answer ⟨f, []⟩))
    (hViolation : ∀ wb n s, Ready (.fill wb n) s → widthOfField wb = none →
      P (.fill wb n) s (s.withHalted.answer ⟨.contractViolation, []⟩))
    (hSeed : ∀ seed s, Ready (.seed seed) s → P (.seed seed) s ((s.withGen (seedGen seed)).answer ⟨.ok, []⟩))
    (hNext64 : ∀ s, Ready .next64 s → P .next64 s ((s.withGen (draw s.gen).2).answer ⟨.ok, [(draw s.gen).1]⟩))
    (hRange : ∀ max s k, Ready (.range max) s → max ≠ 0 → AcceptedAfter max s.gen k →
      P (.range max) s ((s.withGen (genAfter (k + 1) s.gen)).answer ⟨.ok, [drawAt s.gen k % max + 0]⟩))
    (hRange2 : ∀ lo hi s k, Ready (.range2 lo hi) s → ¬ lo ≥ hi → AcceptedAfter (hi - lo) s.gen k →
      P (.range2 lo hi) s ((s.withGen (genAfter (k + 1) s.gen)).answer ⟨.ok, [drawAt s.gen k % (hi - lo) + lo]⟩))
    (hDscfg : ∀ c wb w s, Ready (.dscfg c wb) s → widthOfField wb = some w →
      P (.dscfg c wb) s
        ((s.withChannel c.toNat (Channel.configured w (s.channel c.toNat).sample)).answer ⟨.ok, []⟩))
    (hDsnext : ∀ c s, Ready (.dsnext c) s → (s.channel c.toNat).w ≠ .notConfigured →
      P (.dsnext c) s
        (((s.withChannel c.toNat (takeWindow (s.channel c.toNat) s.gen).2.1).withGen
          (takeWindow (s.channel c.toNat) s.gen).2.2).answer ⟨.ok, [(takeWindow (s.channel c.toNat) s.gen).1]⟩))
    (hFill : ∀ wb n w s, Ready (.fill wb n) s → widthOfField wb = some w →
      P (.fill wb n) s
        ((s.withGen (takeWindows n.toNat (Channel.configured w 0) s.gen).2).answer
          ⟨.ok, (takeWindows n.toNat (Channel.configured w 0) s.gen).1⟩)) :
    ∀ i s t, exec i s = .next t → P i s t := by
  intro i s t h
  rcases exec_cases i s with ⟨_, e⟩ | ⟨_, _, e⟩ | ⟨_, _, _, _, e⟩ | ⟨hr, e⟩
  · rw [e] at h; cases h; exact hFault _ _ _ (by simp) (by simp)
  · rw [e] at h; cases h; exact hFault _ _ _ (by simp) (by simp)
  · rw [e] at h; cases h; exact hFault _ _ _ (by simp) (by simp)
  rw [e] at h
  cases i <;> simp only [execOpen] at h
  case seed => cases h; exact hSeed _ _ hr
  case next64 => cases h; exact hNext64 _ hr
  case range max =>
    split at h
    · cases h; exact hFault _ _ _ (by simp) (by simp)
    · rcases respondInRange_cases 0 max s with ⟨e, _⟩ | ⟨k, _, ha, e⟩ <;> rw [e] at h <;> cases h
      exact hRange _ _ _ hr ‹_› ha
  case range2 lo max =>
    split at h
    · cases h; exact hFault _ _ _ (by simp) (by simp)
    · rcases respondInRange_cases lo (max - lo) s with ⟨e, _⟩ | ⟨k, _, ha, e⟩ <;> rw [e] at h <;> cases h
      exact hRange2 _ _ _ _ hr ‹_› ha
  case dscfg =>
    split at h <;> cases h
    · exact hFault _ _ _ (by simp) (by simp)
    · exact hDscfg _ _ _ _ hr ‹_›
  case dsnext =>
    split at h <;> cases h
    · exact hFault _ _ _ (by simp) (by simp)
    · exact hDsnext _ _ hr ‹_›
  case fill =>
    split at h <;> cases h
    · exact hViolation _ _ _ hr ‹_›
    · exact hFill _ _ _ _ hr ‹_›

theorem exec_params : ∀ i s t, exec i s = .next t → t.params = s.params := by
  apply exec_next_ind <;> intros <;> simp

theorem exec_inputs : ∀ i s t, exec i s = .next t → t.inputs = s.inputs := by
  apply exec_next_ind <;> intros <;> simp

theorem exec_responses : ∀ i s t, exec i s = .next t → ∃ r, t.responses = s.responses ++ [r] := by
  apply exec_next_ind <;> intros <;> simp

/-- What a step can do: nothing without an input, reset, or what `runCommand` says. -/
theorem step_cases (s : State) :
    (s.inputs = [] ∧ step s = .next s) ∨
    (∃ rest, s.inputs = .reset :: rest ∧ step s = .next (s.withInputs rest).applyReset) ∨
    (∃ c rest i, s.inputs = .command c :: rest ∧ decode s.params c = .ok i ∧ step s = exec i (s.withInputs rest)) ∨
    (∃ c rest e, s.inputs = .command c :: rest ∧ decode s.params c = .error e ∧
      step s = .next ((s.withInputs rest).answer ⟨if s.halted then .halted else .illegalCommand, []⟩)) := by
  cases h : s.inputs with
  | nil => exact .inl ⟨rfl, by simp [step, takeInput, h]⟩
  | cons a rest =>
    cases a with
    | reset => exact .inr (.inl ⟨rest, rfl, by simp [step, takeInput, h, runInput]⟩)
    | command c =>
      cases hd : decode s.params c with
      | ok i => exact .inr (.inr (.inl ⟨c, rest, i, rfl, hd, by simp [step, takeInput, h, runInput, runCommand, hd]⟩))
      | error e =>
        refine .inr (.inr (.inr ⟨c, rest, e, rfl, hd, ?_⟩))
        simp only [step, takeInput, h, runInput, runCommand, State.withInputs_params, hd, State.withInputs_halted]
        split <;> simp_all

end Sys2Proof.Machine
end

