-- ==== Sys2Proof/Laws/PerInstr.lean ====
section
/-! SUPPORT. A statement about every instruction as syntax, one lemma per constructor. -/

namespace Sys2Proof.Laws.RowMatch

/-- The row of the opcode map that has the instruction's mnemonic selects the word that encodes it (R76, R84). -/
def Statement (i : Instr) : Prop :=
  ∃ r ∈ opcodeTable, r.mnemonic = i.mnemonic ∧ r.selects (encode i).cw = true

theorem seed (s : Word) : Statement (.seed s) :=
  ⟨{ mnemonic := "SEED", pattern := 0x1000, mask := 0xFFFF }, by decide, rfl, (by decide :
    OpcodeRow.selects _ 0x1000 = true)⟩

theorem next64 : Statement .next64 :=
  ⟨{ mnemonic := "NEXT64", pattern := 0x2000, mask := 0xFFFF }, by decide, rfl, by decide⟩

theorem range (max : Word) : Statement (.range max) :=
  ⟨{ mnemonic := "RANGE", pattern := 0x3000, mask := 0xFFFF }, by decide, rfl, (by decide :
    OpcodeRow.selects _ 0x3000 = true)⟩

theorem range2 (min max : Word) : Statement (.range2 min max) :=
  ⟨{ mnemonic := "RANGE2", pattern := 0x4000, mask := 0xFFFF }, by decide, rfl, (by decide :
    OpcodeRow.selects _ 0x4000 = true)⟩

theorem dscfg (c : BitVec 8) (w : BitVec 4) : Statement (.dscfg c w) := by
  refine ⟨_, .tail _ (.tail _ (.tail _ (.tail _ (.head _)))), rfl, ?_⟩
  simp only [OpcodeRow.selects, encode, beq_iff_eq]
  ext i hi
  simp only [BitVec.getElem_and, BitVec.getElem_or, BitVec.getElem_shiftLeft, BitVec.getElem_setWidth]
  interval_cases i <;> simp

theorem dsnext (c : BitVec 8) : Statement (.dsnext c) := by
  refine ⟨_, .tail _ (.tail _ (.tail _ (.tail _ (.tail _ (.head _))))), rfl, ?_⟩
  simp only [OpcodeRow.selects, encode, beq_iff_eq]
  ext i hi
  simp only [BitVec.getElem_and, BitVec.getElem_or, BitVec.getElem_setWidth]
  interval_cases i <;> simp

theorem fill (w : BitVec 4) (n : Word) : Statement (.fill w n) := by
  refine ⟨_, .tail _ (.tail _ (.tail _ (.tail _ (.tail _ (.tail _ (.head _)))))), rfl, ?_⟩
  simp only [OpcodeRow.selects, encode, beq_iff_eq]
  ext i hi
  simp only [BitVec.getElem_and, BitVec.getElem_or, BitVec.getElem_shiftLeft, BitVec.getElem_setWidth]
  interval_cases i <;> simp

end Sys2Proof.Laws.RowMatch
end

