-- ==== Sys2Proof/Laws/Views.lean ====
section
/-! SUPPORT. What the typed views read, and when a public call of a narrow type has its command. -/

namespace Sys2Proof.Machine

/-- A legal width is what the field written for it asks for. -/
theorem widthOfField_field (w : Width) (h : w ≠ .notConfigured) : widthOfField w.field = some w := by
  revert h; cases w <;> decide

theorem Width.bytes_inj (v w : Width) : v.bytes = w.bytes ↔ v = w := by
  cases v <;> cases w <;> decide

theorem unsignedValue_eq (w : Width) (v : Word) : unsignedValue w v = (v.setWidth (8 * w.bytes)).toNat :=
  (BitVec.toNat_setWidth ..).symm

/-- The formula of R136 is the two's-complement reading of the low bits. -/
theorem signedValue_eq (w : Width) (v : Word) (h : w ≠ .notConfigured) :
    signedValue w v = (v.setWidth (8 * w.bytes)).toInt := by
  have hb : 0 < 8 * w.bytes := by revert h; cases w <;> decide
  rw [BitVec.toInt_eq_msb_cond, BitVec.msb_setWidth, ← unsignedValue_eq, signedValue]
  simp [hb]

/-- The fields of the `f32` view put together again are the low 32 bits of the beat. -/
theorem float32Bits_append (v : Word) :
    ((float32Bits v).sign ++ (float32Bits v).exponent ++ (float32Bits v).fraction : BitVec 32) = v.setWidth 32 := by
  simp only [float32Bits]
  rw [BitVec.extractLsb'_append_extractLsb'_eq_extractLsb' (by rfl),
    BitVec.extractLsb'_append_extractLsb'_eq_extractLsb' (by rfl)]
  ext i hi
  simp

/-- The fields of the `f64` view put together again are the beat. -/
theorem float64Bits_append (v : Word) :
    ((float64Bits v).sign ++ (float64Bits v).exponent ++ (float64Bits v).fraction : BitVec 64) = v := by
  simp only [float64Bits]
  rw [BitVec.extractLsb'_append_extractLsb'_eq_extractLsb' (by rfl),
    BitVec.extractLsb'_append_extractLsb'_eq_extractLsb' (by rfl)]
  ext i hi
  simp

theorem Width.ne_of_narrow (w : Width) (h : w.narrow = true) : w ≠ .eight ∧ w ≠ .notConfigured := by
  revert h; cases w <;> decide

/-- A call of a narrow type has its command exactly on a channel of the type's width (R85). -/
theorem expand_next_narrow (t : ViewType) (w : Width) (c : BitVec 8) (s : State) (ht : t.width = some w)
    (hw : w.narrow = true) :
    Api.expand (.next t c) s = if (s.channel c.toNat).w = w then some (.dsnext c) else none := by
  have h8 := (w.ne_of_narrow hw).1
  by_cases h : (s.channel c.toNat).w = w <;> simp [Api.expand, ViewType.fits, ht, h8, h, hw]

/-- The `DSCFG` a host issues for a narrow type asks for the type's width (R85). -/
theorem setup_next_narrow (t : ViewType) (w : Width) (c : BitVec 8) (ht : t.width = some w) (hw : w.narrow = true) :
    Api.setup (.next t c) = some (.dscfg c w.field) := by
  simp [Api.setup, ht, hw]

end Sys2Proof.Machine
end

