-- ==== Sys2Proof/Tests/Slice0.lean ====
section
/-! SUPPORT. Tests with values taken from the spec's tables, and for every statement with hypotheses a witness that
meets them. -/

namespace Sys2Proof.Tests

open Sys2Proof.Machine

/-! ## Helpers -/

/-- A block of two channels with both extensions, just after reset. -/
def fresh : State := State.resetOf ⟨2, true, true⟩

/-- The same block after `SEED 5489`. -/
def seeded : State := { fresh with gen := seedGen 5489 }

/-- The same block after the first twist of seed 5489, with the cursor at `i`. -/
def twisted (i : Fin 313) : State :=
  { fresh with gen := { mt := twist (seedGen 5489).mt, idx := i, seeded := true } }

/-- The seeded block with channel 0 as given. -/
def holding (k : Channel) : State := { seeded with ch := [k, Channel.atReset] }

/-- A channel of width 2 that has emitted one window of its sample. -/
def halfWay : Channel := { w := .two, rem := 6, sample := 0x0123456789ABCDEF }

/-- A channel of width 1 with all but one byte left. -/
def byteWise : Channel := { w := .one, rem := 7, sample := 0x0123456789ABCDEF }

/-- The seeded block, halted. -/
def stopped : State := { seeded with halted := true }

/-- The block with these inputs to come. -/
def facing (is : List Input) (s : State) : State := { s with inputs := is }

/-- The state an outcome leads to. -/
def after : Result → Option State
  | .next t => some t
  | .fault _ => none
  | .refused _ => none

/-- The last response of an outcome. -/
def answerOf (r : Result) : Option Response := (after r).bind fun t => t.responses.getLast?

/-- The answer to a command presented next. -/
def reply (s : State) (cw : BitVec 16) (opa opb : Word) : Option Response := answerOf (step (s.present ⟨cw, opa, opb⟩))

theorem next_with (r : Result) (p : State → Bool) (h : (after r).map p = some true) : ∃ t, r = .next t ∧ p t = true := by
  cases r <;> simp_all [after]

theorem next_of_isSome (r : Result) (h : (after r).isSome = true) : ∃ t, r = .next t := by
  cases r <;> simp_all [after]

/-! ## Well-formedness refuses what the block does not have -/

theorem test_wf_range_needs_extension : (Instr.range 5).wellFormed ⟨1, false, true⟩ = false := by decide
theorem test_wf_range2_needs_extension : (Instr.range2 1 2).wellFormed ⟨1, false, true⟩ = false := by decide
theorem test_wf_fill_needs_extension : (Instr.fill 1 2).wellFormed ⟨1, true, false⟩ = false := by decide
theorem test_wf_dscfg_needs_channel : (Instr.dscfg 1 4).wellFormed ⟨1, true, true⟩ = false := by decide
theorem test_wf_dsnext_needs_channel : (Instr.dsnext 255).wellFormed ⟨255, true, true⟩ = false := by decide
theorem test_wf_params_nch_zero : Params.wf ⟨0, true, true⟩ = false := by decide
theorem test_wf_params_nch_257 : Params.wf ⟨257, true, true⟩ = false := by decide

/-! ## Decoding, each word written out from the pattern column of R76 -/

theorem test_decode_seed : decode ⟨1, true, true⟩ ⟨0b0001000000000000, 7, 9⟩ = .ok (.seed 7) := by decide
theorem test_decode_next64 : decode ⟨1, true, true⟩ ⟨0b0010000000000000, 7, 9⟩ = .ok .next64 := by decide
theorem test_decode_range : decode ⟨1, true, true⟩ ⟨0b0011000000000000, 7, 9⟩ = .ok (.range 7) := by decide
theorem test_decode_range2 : decode ⟨1, true, true⟩ ⟨0b0100000000000000, 7, 9⟩ = .ok (.range2 7 9) := by decide
theorem test_decode_dscfg : decode ⟨256, true, true⟩ ⟨0b0101010010000001, 7, 9⟩ = .ok (.dscfg 129 4) := by decide
theorem test_decode_dsnext : decode ⟨256, true, true⟩ ⟨0b0110000010000001, 7, 9⟩ = .ok (.dsnext 129) := by decide
theorem test_decode_fill : decode ⟨1, true, true⟩ ⟨0b0111001000000000, 7, 9⟩ = .ok (.fill 2 7) := by decide
/-- Rows of section 2.9 of the test vectors. -/
theorem test_decode_reserved :
    decode ⟨1, true, true⟩ ⟨0x0000, 0, 0⟩ = .error .reservedOpcode ∧
    decode ⟨1, true, true⟩ ⟨0xFFFF, 0, 0⟩ = .error .reservedOpcode ∧
    decode ⟨1, true, true⟩ ⟨0x8000, 0, 0⟩ = .error .reservedOpcode ∧
    decode ⟨1, true, true⟩ ⟨0x1001, 0, 0⟩ = .error .fieldNotZero ∧
    decode ⟨1, true, true⟩ ⟨0x1100, 0, 0⟩ = .error .fieldNotZero ∧
    decode ⟨1, true, true⟩ ⟨0x2001, 0, 0⟩ = .error .fieldNotZero ∧
    decode ⟨1, true, true⟩ ⟨0x6100, 0, 0⟩ = .error .fieldNotZero ∧
    decode ⟨1, true, true⟩ ⟨0x7001, 0, 0⟩ = .error .fieldNotZero ∧
    decode ⟨1, true, true⟩ ⟨0x5101, 0, 0⟩ = .error .noSuchChannel ∧
    decode ⟨2, true, true⟩ ⟨0x5101, 0, 0⟩ = .ok (.dscfg 1 1) ∧
    decode ⟨1, true, true⟩ ⟨0x6001, 0, 0⟩ = .error .noSuchChannel ∧
    decode ⟨1, false, true⟩ ⟨0x3000, 0, 0⟩ = .error .absentExtension ∧
    decode ⟨1, false, true⟩ ⟨0x4000, 0, 0⟩ = .error .absentExtension ∧
    decode ⟨1, true, false⟩ ⟨0x7100, 0, 0⟩ = .error .absentExtension := by decide

theorem test_table_word : decodeTableWord 16 0x5281 = some (.dscfg 129 2) ∧ decodeTableWord 16 0x8000 = none ∧
    decodeTableWord 144 (0x1000 + 7 * 2 ^ 16 + 9 * 2 ^ 80) = some (.seed 7) := by decide

theorem test_fetch_word_runs : answerOf (step (State.reset.withFetchWord 16 0x1000)) = some ⟨.ok, []⟩ := by
  decide +kernel

/-! ## The generator, against sections 2.1 to 2.4 of the test vectors -/

theorem test_mix : mix 0x80000000 0 = 0x40000000 ∧ mix 0 0x7FFFFFFE = 0x3FFFFFFF ∧
    mix 0x0123456789ABCDEF 0xFEDCBA9876543211 = 0xB593CDE9524C00E1 := by decide
theorem test_temper : temper 2 = 0x0080004000041002 ∧ temper 0x5555555555555555 = 0xCB35D55FFDEE33EF ∧
    temper 0x245B1C66F2BDC210 = 0xC96D191CF6F6AEA6 := by decide
/-- The rows of section 2.3 that read new words, 156, 310 and 311, and two that do not. -/
theorem test_twist : (twisted 0).gen.mt[0] = 0x245B1C66F2BDC210 ∧ (twisted 0).gen.mt[155] = 0x23B9C89211C7DB80 ∧
    (twisted 0).gen.mt[156] = 0x367692559AEADCA8 ∧ (twisted 0).gen.mt[310] = 0x8C5105E16422467E ∧
    (twisted 0).gen.mt[311] = 0x4094BC3C28993A88 := by decide +kernel

theorem test_seed_zero : (seedGen 0).mt[1] = 1 ∧ (seedGen 0).mt[2] = 0x5851F42D4C957F2F ∧
    (seedGen 0).mt[311] = 0xCDE6D1BB67E51A2A ∧ (seedGen 0).idx = 312 := by decide +kernel
theorem test_seed_wraps : (seedGen u64Max).mt[1] = 0x9EB82F4ACDAA034D ∧
    (seedGen u64Max).mt[156] = 0x836C498D004E4522 := by decide +kernel

theorem test_next64_first : reply seeded 0x2000 1 2 = some ⟨.ok, [0xC96D191CF6F6AEA6]⟩ := by decide +kernel
/-- The draw that tells the two readings of the twist apart. -/
theorem test_next64_draw_157 : reply (twisted 156) 0x2000 0 0 = some ⟨.ok, [0x4927012902F7E84C]⟩ := by decide +kernel

/-! ## Ranges, against section 2.7 -/

theorem test_rejects : rejects 1 0xFFFFFFFFFFFFFFFE = false ∧ rejects 2 0xFFFFFFFFFFFFFFFE = true ∧
    rejects 7 0xFFFFFFFFFFFFFFFD = false ∧ rejects 3 u64Max = true ∧
    rejects 0x8000000000000001 0x8000000000000000 = false ∧
    rejects 0x8000000000000001 0x8000000000000001 = true := by decide
/-- Draw 1 is rejected and lost, draw 2 is the answer. -/
theorem test_range_rejects_once : (after (exec (.range 0x8000000000000001) seeded)).map
    (fun t => (t.responses, t.gen.idx)) = some ([⟨.ok, [0x401F7AC78BC80F1C]⟩], 2) := by decide +kernel
theorem test_range_zero : reply seeded 0x3000 0 5 = some ⟨.invalidArgument, []⟩ := by decide +kernel
theorem test_range2 : reply seeded 0x4000 10 20 = some ⟨.ok, [10]⟩ := by decide +kernel
/-- The comparison is unsigned (R154). -/
theorem test_range2_unsigned : reply seeded 0x4000 u64Max 0 = some ⟨.invalidArgument, []⟩ := by decide +kernel

/-! ## The downsampler and the fill, against sections 2.5 and 2.8 -/

theorem test_dscfg_drops_bytes : (after (exec (.dscfg 0 4) (holding halfWay))).map (fun t => t.ch) =
    some [{ w := .four, rem := 0, sample := 0x0123456789ABCDEF }, Channel.atReset] := by decide +kernel
theorem test_dscfg_three : (after (exec (.dscfg 0 3) (holding halfWay))).map (fun t => (t.ch, t.responses)) =
    some ([halfWay, Channel.atReset], [⟨.invalidArgument, []⟩]) := by decide +kernel
theorem test_dsnext_second_window : (after (exec (.dsnext 0) (holding halfWay))).map (fun t => (t.ch, t.responses)) =
    some ([{ w := .two, rem := 4, sample := 0x0123456789ABCDEF }, Channel.atReset], [⟨.ok, [0x4567]⟩]) := by
  decide +kernel
theorem test_dsnext_refills : (after (exec (.dsnext 0) (holding (Channel.configured .four 0)))).map
    (fun t => (t.ch, t.responses, t.gen.idx)) =
    some ([{ w := .four, rem := 4, sample := 0xC96D191CF6F6AEA6 }, Channel.atReset], [⟨.ok, [0xC96D191C]⟩], 1) := by
  decide +kernel
theorem test_fill_bytes : reply seeded 0x7100 9 0 =
    some ⟨.ok, [0xC9, 0x6D, 0x19, 0x1C, 0xF6, 0xF6, 0xAE, 0xA6, 0x40]⟩ := by decide +kernel
theorem test_fill_three_halts : (after (exec (.fill 3 0) seeded)).map (fun t => (t.halted, t.gen.idx, t.responses)) =
    some (true, 312, [⟨.contractViolation, []⟩]) := by decide +kernel

/-! ## The order of the tests (the end of section 2.9), reset, and views (section 2.6) -/

theorem test_order_of_tests : reply fresh 0x3000 0 0 = some ⟨.notSeeded, []⟩ ∧
    reply fresh 0x6000 0 0 = some ⟨.notSeeded, []⟩ ∧ reply fresh 0x7300 0 0 = some ⟨.notSeeded, []⟩ ∧
    reply fresh 0x5300 0 0 = some ⟨.invalidArgument, []⟩ ∧ reply fresh 0x2001 0 0 = some ⟨.illegalCommand, []⟩ ∧
    reply stopped 0xFFFF 0 0 = some ⟨.halted, []⟩ ∧ reply stopped 0x1000 0 0 = some ⟨.halted, []⟩ := by
  decide +kernel
theorem test_reset_input : (after (step (facing [.reset] { stopped with ch := [halfWay, halfWay] }))).map
    (fun t => (t.halted, t.gen.seeded, t.gen.idx, t.ch.map fun k => (k.w, k.rem))) =
    some (false, false, 312, [(.notConfigured, 0), (.notConfigured, 0)]) := by
  decide +kernel
theorem test_views : view .i16 0xC96D = .signed (-13971) ∧ view .i8 0x80 = .signed (-128) ∧
    view .i32 0xC96D191C = .signed (-915597028) ∧
    view .i64 0xC96D191CF6F6AEA6 = .signed (-3932459287431434586) ∧ view .u16 0xFFFF = .unsigned 65535 ∧
    view .f32 0x3F800000 = .float32 ⟨0, 127, 0⟩ ∧ view .f64 0x7FF8000000000000 = .float64 ⟨0, 2047, 0x8000000000000⟩ := by
  decide

/-! ## Witnesses: the hypotheses of the statements can be met -/

theorem witness_DecodeInvertsEncode :
    (Instr.seed 0).wellFormed ⟨1, false, false⟩ = true ∧ Instr.next64.wellFormed ⟨1, false, false⟩ = true ∧
    (Instr.range u64Max).wellFormed ⟨1, true, false⟩ = true ∧ (Instr.range2 0 1).wellFormed ⟨1, true, false⟩ = true ∧
    (Instr.dscfg 255 15).wellFormed ⟨256, false, false⟩ = true ∧ (Instr.dscfg 0 0).wellFormed ⟨1, false, false⟩ = true ∧
    (Instr.dsnext 255).wellFormed ⟨256, false, false⟩ = true ∧ (Instr.fill 15 0).wellFormed ⟨1, false, true⟩ = true := by
  decide
theorem witness_DecodedWordIsTheEncodedWord : decode ⟨1, false, false⟩ ⟨0x5F00, 3, 4⟩ = .ok (.dscfg 0 15) := by decide
theorem witness_OpcodeMapSelectsTheCommand :
    (∃ r₁ ∈ opcodeTable, ∃ r₂ ∈ opcodeTable, r₁.selects 0x7F00 = true ∧ r₂.selects 0x7F00 = true) ∧
    decode ⟨256, true, true⟩ ⟨0x6000, 0, 0⟩ = .ok (.dsnext 0) ∧
    ∃ r ∈ opcodeTable, (0x5FFF : BitVec 16) &&& r.mask = r.pattern := by decide
theorem witness_IllegalWordsAreExactlyTheseFour : (facing [.command ⟨0x8000, 0, 0⟩] fresh).halted = false ∧
    decode (facing [.command ⟨0x8000, 0, 0⟩] fresh).params ⟨0x8000, 0, 0⟩ = .error .reservedOpcode := by decide
theorem witness_LegalWordsCounted : Params.wf ⟨1, true, true⟩ = true ∧ Params.wf ⟨256, true, true⟩ = true := by decide
theorem witness_AbsentExtensionsAreReservedOpcodes :
    ((0x3000 : BitVec 16).extractLsb' 12 4).toNat = 3 ∧ ((0x4FFF : BitVec 16).extractLsb' 12 4).toNat = 4 ∧
    ((0x7FFF : BitVec 16).extractLsb' 12 4).toNat = 7 ∧ ((0x2000 : BitVec 16).extractLsb' 12 4).toNat = 2 := by decide

theorem witness_StepRunsDecodedCommand :
    (facing [.command ⟨0x2000, 0, 0⟩, .reset] fresh).inputs = .command ⟨0x2000, 0, 0⟩ :: [.reset] ∧
    decode (facing [.command ⟨0x2000, 0, 0⟩, .reset] fresh).params ⟨0x2000, 0, 0⟩ = .ok .next64 := by decide
theorem witness_StepFollowsTheDecodeProcedure :
    (facing [.command ⟨0xFFFF, 1, 2⟩] stopped).inputs = .command ⟨0xFFFF, 1, 2⟩ :: [] := by decide
theorem witness_OneResponsePerCommand : (∃ t, step (facing [.command ⟨0x1000, 0, 0⟩] fresh) = .next t) ∧
    (∃ t, step (facing [.reset] fresh) = .next t) ∧ fresh.inputs = [] :=
  ⟨next_of_isSome _ (by decide +kernel), next_of_isSome _ (by decide +kernel), rfl⟩
theorem witness_ResponseShape :
    (∃ t, step (facing [.command ⟨0x1000, 1, 0⟩] fresh) = .next t) ∧
    (∃ t, step (facing [.command ⟨0x6000, 0, 0⟩] (holding byteWise)) = .next t) ∧
    (∃ t, step (facing [.command ⟨0x7800, 0, 0⟩] seeded) = .next t) ∧
    ∃ t, step (facing [.command ⟨0x7100, 9, 0⟩] seeded) = .next t := by
  refine ⟨?_, ?_, ?_, ?_⟩ <;> exact next_of_isSome _ (by decide +kernel)
theorem witness_ResetRegisterValues : (255 : Nat) < (⟨256, true, true⟩ : Params).nch := by decide
theorem witness_ResetInputRestoresResetValues :
    (facing [.reset, .command ⟨0, 0, 0⟩] stopped).inputs = .reset :: [.command ⟨0, 0, 0⟩] ∧
    1 < (facing [.reset, .command ⟨0, 0, 0⟩] stopped).ch.length := by decide

theorem witness_HaltedBlockAnswersHalted :
    (facing [.command ⟨0x1000, 0, 0⟩] stopped).halted = true ∧
    (∃ t, seeded.halted = false ∧ exec (.fill 3 0) seeded = .next t ∧ t.halted = true) ∧
    (∃ t, step (facing [.command ⟨0x1000, 0, 0⟩] stopped) = .next t) ∧
    ∀ rest, (facing [.command ⟨0x1000, 0, 0⟩] stopped).inputs ≠ .reset :: rest := by
  refine ⟨rfl, ?_, ?_, fun rest h => ?_⟩
  · obtain ⟨t, h, hp⟩ := next_with (exec (.fill 3 0) seeded) (fun t => t.halted) (by decide +kernel)
    exact ⟨t, rfl, h, hp⟩
  · exact next_of_isSome _ (by decide +kernel)
  · cases h
theorem fresh_inv : fresh.Inv := by
  refine ⟨by decide, fun k hk => ?_, fun _ k hk => ?_, (fun h => nomatch h)⟩ <;>
    obtain ⟨-, rfl⟩ := List.mem_replicate.1 hk <;> simp [Channel.Inv, Channel.atReset]
theorem witness_DrawingBeforeSeedAnswersNotSeeded :
    fresh.halted = false ∧ (Instr.fill 1 0).wellFormed fresh.params = true ∧
    (Instr.dsnext 1).wellFormed fresh.params = true ∧ fresh.gen.seeded = false ∧
    fresh.Inv ∧ Channel.atReset ∈ fresh.ch ∧
    (∃ t, exec (.seed 5) fresh = .next t) ∧ ∃ t, exec (.dscfg 0 0) fresh = .next t := by
  refine ⟨rfl, rfl, rfl, rfl, fresh_inv, by decide, ?_, ?_⟩ <;> exact next_of_isSome _ (by decide +kernel)
theorem witness_InvalidArgumentsChangeNothing : seeded.halted = false ∧ seeded.hasRange = true ∧
    seeded.gen.seeded = true ∧ u64Max.toNat ≤ u64Max.toNat ∧ (0 : Word).toNat ≤ (1 : Word).toNat ∧
    (1 : BitVec 8).toNat < seeded.ch.length ∧ (0 : BitVec 4).toNat = 0 ∧ 8 % (3 : BitVec 4).toNat ≠ 0 ∧
    8 % (15 : BitVec 4).toNat ≠ 0 := by decide
theorem witness_FillContractViolationHalts : seeded.halted = false ∧ seeded.hasFill = true ∧ seeded.gen.seeded = true ∧
    (0 : BitVec 4).toNat = 0 ∧ 8 % (7 : BitVec 4).toNat ≠ 0 := by decide
theorem witness_FirstFailingTestDecidesTheStatus :
    ∃ t, step (facing [.command ⟨0x3000, 0, 0⟩] fresh) = .next t := next_of_isSome _ (by decide +kernel)
theorem witness_FaultsArePrecise :
    ∃ t, step (facing [.command ⟨0x7300, 0, 0⟩] seeded) = .next t ∧
      t.responses = (facing [.command ⟨0x7300, 0, 0⟩] seeded).responses ++ [⟨.contractViolation, []⟩] ∧
      (⟨.contractViolation, []⟩ : Response).status ≠ .ok := by
  obtain ⟨t, h, hp⟩ := next_with (step (facing [.command ⟨0x7300, 0, 0⟩] seeded))
    (fun t => decide (t.responses = [⟨.contractViolation, []⟩])) (by decide +kernel)
  exact ⟨t, h, of_decide_eq_true hp, by decide⟩
theorem witness_RecoverableFaultsLeaveNoTrace :
    ∃ t, step (facing [.command ⟨0x3000, 0, 0⟩, .command ⟨0x2000, 0, 0⟩] seeded) = .next t ∧
      t.responses = seeded.responses ++ [⟨.invalidArgument, []⟩] := by
  obtain ⟨t, h, hp⟩ := next_with (step (facing [.command ⟨0x3000, 0, 0⟩, .command ⟨0x2000, 0, 0⟩] seeded))
    (fun t => decide (t.responses = [⟨.invalidArgument, []⟩])) (by decide +kernel)
  exact ⟨t, h, of_decide_eq_true hp⟩

theorem witness_SeedExpandsTheSeed : fresh.halted = false ∧ seeded.halted = false := by decide
theorem witness_SeedAloneDeterminesTheGenerator : fresh.halted = false ∧ (twisted 7).halted = false := by decide
theorem witness_TwistIsTheInPlacePass : (seedGen 5489).idx.val = 312 := by decide
theorem witness_MixJoinsUpperAndLowerBits :
    (0xFFFFFFFF80000000 : Word).extractLsb' 31 33 = u64Max.extractLsb' 31 33 ∧
    (0x7FFFFFFF : Word).extractLsb' 0 31 = u64Max.extractLsb' 0 31 := by decide
theorem witness_TemperFourSteps : ∃ y1 y2 y3 : Word, y1 = (5 : Word) ^^^ (((5 : Word) >>> 29) &&& 0x5555555555555555) ∧
    y2 = y1 ^^^ ((y1 <<< 17) &&& 0x71D67FFFEDA60000) ∧ y3 = y2 ^^^ ((y2 <<< 37) &&& 0xFFF7EEE000000000) :=
  ⟨_, _, _, rfl, rfl, rfl⟩
theorem witness_DrawTakesTheWordAtTheCursor : (twisted 0).gen.idx.val < 312 ∧ (twisted 311).gen.idx.val < 312 ∧
    (twisted 312).gen.idx.val = 312 := by decide
theorem witness_Next64ReturnsTheNextWord : fresh.halted = false ∧ fresh.gen.seeded = false ∧
    (twisted 0).halted = false ∧ (twisted 0).gen.seeded = true ∧ (twisted 0).gen.idx.val < 312 ∧
    (twisted 311).gen.idx.val < 312 ∧ (twisted 312).gen.idx.val = 312 := by decide
theorem witness_DrawsAfterSeedByNumber : 1 ≤ 1 ∧ 1 ≤ 313 := by decide
theorem witness_Next64DependsOnGenAlone : seeded.halted = false ∧ (holding halfWay).halted = false ∧
    seeded.gen = (holding halfWay).gen ∧ ∃ t, exec .next64 seeded = .next t :=
  ⟨rfl, rfl, rfl, next_of_isSome _ (by decide +kernel)⟩
theorem witness_OnlySeedAndTwistWriteTheVector : ∃ t, exec .next64 seeded = .next t :=
  next_of_isSome _ (by decide +kernel)
theorem witness_CommandsChangeGenByDrawsAlone :
    ∃ t, exec (.dsnext 0) (holding halfWay) = .next t ∧
      t.responses = (holding halfWay).responses ++ [⟨.ok, [0x4567]⟩] ∧ (⟨.ok, [0x4567]⟩ : Response).status = .ok := by
  obtain ⟨t, h, hp⟩ := next_with (exec (.dsnext 0) (holding halfWay))
    (fun t => decide (t.responses = [⟨.ok, [0x4567]⟩])) (by decide +kernel)
  exact ⟨t, h, of_decide_eq_true hp, rfl⟩

theorem witness_LegalWidthsDivideEight : widthOfField 8 = some .eight ∧ widthOfField 0 = none := by decide
theorem witness_DscfgConfiguresTheChannel : fresh.halted = false ∧ (1 : BitVec 8).toNat < fresh.ch.length ∧
    (8 : BitVec 4).toNat ≠ 0 ∧ 8 % (8 : BitVec 4).toNat = 0 ∧ 8 % (9 : BitVec 4).toNat ≠ 0 := by decide
theorem halfWay_inv : halfWay.Inv := by simp [Channel.Inv, halfWay, Width.bytes]
theorem byteWise_inv : byteWise.Inv := by simp [Channel.Inv, byteWise, Width.bytes]
theorem emptyEight_inv : (Channel.configured .eight 0).Inv := by simp [Channel.Inv, Width.bytes]
theorem witness_DsnextEmitsTheNextWindow :
    (holding byteWise).halted = false ∧ (0 : BitVec 8).toNat < (holding byteWise).ch.length ∧
    fresh.gen.seeded = false ∧ (holding byteWise).gen.seeded = true ∧
    (seeded.channel (1 : BitVec 8).toNat).w = .notConfigured ∧
    ((holding byteWise).channel (0 : BitVec 8).toNat).w ≠ .notConfigured ∧
    ((holding byteWise).channel (0 : BitVec 8).toNat).Inv ∧
    ((holding (Channel.configured .eight 0)).channel (0 : BitVec 8).toNat).Inv :=
  ⟨rfl, by decide, rfl, rfl, rfl, by decide, byteWise_inv, emptyEight_inv⟩
theorem witness_WindowsOfASampleFromTheTop :
    let s := holding (Channel.configured .one 0)
    s.halted = false ∧ (0 : BitVec 8).toNat < s.ch.length ∧ s.gen.seeded = true ∧
    (s.channel (0 : BitVec 8).toNat).w ≠ .notConfigured ∧ (s.channel (0 : BitVec 8).toNat).rem.val = 0 ∧
    0 < 8 / (s.channel (0 : BitVec 8).toNat).w.bytes ∧ 7 < 8 / (s.channel (0 : BitVec 8).toNat).w.bytes := by decide
theorem witness_OneDrawPerSampleOfWindows :
    let s := holding (Channel.configured .two 0)
    s.halted = false ∧ (0 : BitVec 8).toNat < s.ch.length ∧ s.gen.seeded = true ∧
    (s.channel (0 : BitVec 8).toNat).w ≠ .notConfigured ∧ (s.channel (0 : BitVec 8).toNat).rem.val = 0 := by decide
theorem witness_EightByteChannelIsNext64 :
    let s := holding (Channel.configured .eight 0)
    s.halted = false ∧ (0 : BitVec 8).toNat < s.ch.length ∧ s.gen.seeded = true ∧
    (s.channel (0 : BitVec 8).toNat).w = .eight ∧ (s.channel (0 : BitVec 8).toNat).Inv :=
  ⟨rfl, by decide, rfl, rfl, emptyEight_inv⟩
theorem witness_StaleBytesOutliveSeed :
    let s := holding halfWay
    s.halted = false ∧ (0 : BitVec 8).toNat < s.ch.length ∧ (s.channel (0 : BitVec 8).toNat).w ≠ .notConfigured ∧
    (s.channel (0 : BitVec 8).toNat).Inv ∧ (s.channel (0 : BitVec 8).toNat).rem.val ≠ 0 ∧
    ∃ t, exec (.seed 1) s = .next t :=
  ⟨rfl, by decide, by decide, halfWay_inv, by decide, next_of_isSome _ (by decide +kernel)⟩

/-- The first draw of seed 5489 is rejected for the bound 2^63 + 1 and the second is accepted (section 2.7). -/
theorem accepted_second : AcceptedAfter 0x8000000000000001 (seedGen 5489) 1 := by
  refine ⟨fun j hj => ?_, by decide +kernel⟩
  obtain rfl : j = 0 := by omega
  decide +kernel
theorem witness_RangeReturnsTheFirstAcceptedDraw :
    seeded.halted = false ∧ seeded.hasRange = true ∧ fresh.gen.seeded = false ∧ seeded.gen.seeded = true ∧
    (0x8000000000000001 : Word) ≠ 0 ∧
    (∀ j < 1, (drawAt seeded.gen j).toNat - (drawAt seeded.gen j).toNat % (0x8000000000000001 : Word).toNat >
      (2 ^ 64 - 1) - (0x8000000000000001 : Word).toNat) ∧
    (drawAt seeded.gen 1).toNat - (drawAt seeded.gen 1).toNat % (0x8000000000000001 : Word).toNat ≤
      (2 ^ 64 - 1) - (0x8000000000000001 : Word).toNat := by
  refine ⟨rfl, rfl, rfl, rfl, by decide, fun j hj => ?_, by decide +kernel⟩
  obtain rfl : j = 0 := by omega
  decide +kernel
/-- `RANGE` with an accepted draw: the fault cannot happen, so the equivalence has a witness on its other side. -/
theorem witness_OnlyAnEndlessRejectionLoopStops : rejects 7 (drawAt seeded.gen 0) = false := by decide +kernel
theorem witness_RejectionThreshold : (1 : Word) ≠ 0 ∧ u64Max ≠ 0 ∧ 0 < (1 : Word).toNat := by decide
theorem witness_LowDrawsAreAlwaysAccepted : (0x7FFFFFFFFFFFFFFF : Word).toNat < 2 ^ 63 ∧
    (0x8000000000000000 : Word).toNat = 2 ^ 63 ∧ (0x8000000000000001 : Word).toNat = 2 ^ 63 + 1 ∧
    2 ^ 63 < u64Max.toNat ∧ (0xFFFFFFFF : Word).toNat < 2 ^ 32 := by decide
/-- `RANGE 0x8000000000000001` rejects its first draw and accepts its second (section 2.7). -/
theorem range_answers : ∃ t, exec (.range 0x8000000000000001) seeded = .next t ∧
    t.responses = seeded.responses ++ [⟨.ok, [0x401F7AC78BC80F1C]⟩] := by
  obtain ⟨t, h, hp⟩ := next_with (exec (.range 0x8000000000000001) seeded)
    (fun t => decide (t.responses = [⟨.ok, [0x401F7AC78BC80F1C]⟩])) (by decide +kernel)
  exact ⟨t, h, of_decide_eq_true hp⟩
/-- `RANGE2 10, 20` answers 10 (R154). -/
theorem range2_answers : ∃ t, exec (.range2 10 20) seeded = .next t ∧
    t.responses = seeded.responses ++ [⟨.ok, [10]⟩] := by
  obtain ⟨t, h, hp⟩ := next_with (exec (.range2 10 20) seeded)
    (fun t => decide (t.responses = [⟨.ok, [10]⟩])) (by decide +kernel)
  exact ⟨t, h, of_decide_eq_true hp⟩
theorem witness_RangeArithmeticDoesNotWrap :
    (u64Max ≠ 0 ∧ rejects 7 u64Max = true ∧ (0 : Word).toNat < u64Max.toNat ∧ u64Max = u64Max - 0) ∧
    (∃ t, exec (.range 0x8000000000000001) seeded = .next t ∧
      t.responses = seeded.responses ++ [⟨.ok, [0x401F7AC78BC80F1C]⟩]) ∧
    ∃ t, exec (.range2 10 20) seeded = .next t ∧ t.responses = seeded.responses ++ [⟨.ok, [10]⟩] :=
  ⟨by decide, range_answers, range2_answers⟩
theorem witness_Range2IsRangeMovedUp : seeded.halted = false ∧ seeded.hasRange = true ∧ fresh.gen.seeded = false ∧
    seeded.gen.seeded = true ∧ u64Max.toNat ≤ u64Max.toNat ∧ (0 : Word).toNat < (0x8000000000000001 : Word).toNat ∧
    (∃ t, exec (.range (0x8000000000000001 - 0)) seeded = .next t) ∧
    AcceptedAfter (0x8000000000000001 - 0) seeded.gen 1 :=
  ⟨rfl, rfl, rfl, rfl, by decide, by decide, next_of_isSome _ (by decide +kernel), accepted_second⟩
theorem witness_RangeDrawsAreNext64s :
    (∃ t, exec (.range 0x8000000000000001) seeded = .next t ∧
      t.responses = seeded.responses ++ [⟨.ok, [0x401F7AC78BC80F1C]⟩]) ∧
    ∃ t, exec (.range2 10 20) seeded = .next t ∧ t.responses = seeded.responses ++ [⟨.ok, [10]⟩] :=
  ⟨range_answers, range2_answers⟩
theorem witness_RangesAtTheEdges : ((2 : Word), (1 : Word)) ∈ [((0 : Word), (0 : Word)), (1, 1), (2, 1), (u64Max, u64Max)] ∧
    seeded.halted = false ∧ seeded.hasRange = true ∧ seeded.gen.seeded = true ∧ u64Max.toNat = (u64Max - 1).toNat + 1 ∧
    (∃ t, exec (.range2 (u64Max - 1) u64Max) seeded = .next t) ∧ (∃ t, exec (.range 1) seeded = .next t) ∧
    (u64Max - 1) ≠ u64Max ∧ (0x7FFFFFFFFFFFFFFF : Word).getLsbD 63 = false :=
  ⟨by decide, rfl, rfl, rfl, by decide, next_of_isSome _ (by decide +kernel), next_of_isSome _ (by decide +kernel), by decide,
    by decide⟩

theorem witness_FillElementsInOrder : seeded.halted = false ∧ seeded.hasFill = true ∧ fresh.gen.seeded = false ∧
    seeded.gen.seeded = true ∧ 8 % (6 : BitVec 4).toNat ≠ 0 ∧ Width.eight ≠ .notConfigured ∧
    Width.eight.bytes = (8 : BitVec 4).toNat ∧ Width.one.bytes = (1 : BitVec 4).toNat := by decide
theorem witness_FillIsManyDsnexts : seeded.halted = false ∧ seeded.hasFill = true ∧ seeded.gen.seeded = true ∧
    (1 : BitVec 8).toNat < seeded.ch.length ∧ (4 : BitVec 4).toNat ≠ 0 ∧ 8 % (4 : BitVec 4).toNat = 0 ∧
    8 % (5 : BitVec 4).toNat ≠ 0 := by decide
theorem witness_FillOfNothingDrawsNothing : seeded.halted = false ∧ seeded.hasFill = true ∧ seeded.gen.seeded = true ∧
    (1 : BitVec 4).toNat ≠ 0 ∧ 8 % (1 : BitVec 4).toNat = 0 ∧ (0 : BitVec 4).toNat = 0 := by decide

theorem witness_CommandFrames : (∃ t, exec (.dsnext 1) seeded = .next t) ∧
    (∃ t, exec (.dscfg 0 2) (holding byteWise) = .next t) ∧ (∃ t, exec (.fill 5 1) seeded = .next t) ∧
    (∃ t, exec (.range 0x8000000000000001) seeded = .next t) ∧
    ((holding byteWise).channel (0 : BitVec 8).toNat).rem.val ≠ 0 := by
  refine ⟨?_, ?_, ?_, ?_, by decide⟩ <;> exact next_of_isSome _ (by decide +kernel)
theorem witness_ResetMeetsTheInvariant : Params.wf ⟨1, false, false⟩ = true ∧ Params.wf ⟨256, true, true⟩ = true := by
  decide
theorem holding_halfWay_inv : (facing [.command ⟨0x6000, 0, 0⟩] (holding halfWay)).Inv := by
  refine ⟨by decide, fun k hk => ?_, (fun h => nomatch h), (fun h => nomatch h)⟩
  rcases List.mem_cons.1 hk with rfl | hk
  · exact halfWay_inv
  · obtain rfl := List.mem_singleton.1 hk
    simp [Channel.Inv, Channel.atReset]
theorem witness_StepKeepsTheInvariant : (facing [.command ⟨0x6000, 0, 0⟩] (holding halfWay)).Inv ∧
    ∃ t, step (facing [.command ⟨0x6000, 0, 0⟩] (holding halfWay)) = .next t :=
  ⟨holding_halfWay_inv, next_of_isSome _ (by decide +kernel)⟩
theorem witness_StepKeepsTheParameters : ∃ t, step (facing [.reset] stopped) = .next t :=
  next_of_isSome _ (by decide +kernel)
theorem witness_OnlyResetUndoesAConstruction :
    (∃ t, exec (.seed 3) fresh = .next t ∧ t.gen.seeded ≠ fresh.gen.seeded) ∧
    (∃ t, exec (.fill 3 0) seeded = .next t ∧ t.halted ≠ seeded.halted) ∧
    ∃ t, exec (.dscfg 0 8) fresh = .next t ∧ (t.channel 0).w ≠ (fresh.channel 0).w := by
  refine ⟨⟨_, exec_of_ready _ _ (ready_seed _ _ rfl), by decide⟩, ?_, ?_⟩
  · obtain ⟨t, h, hp⟩ := next_with (exec (.fill 3 0) seeded) (fun t => t.halted) (by decide +kernel)
    exact ⟨t, h, by rw [hp]; decide⟩
  · obtain ⟨t, h, hp⟩ := next_with (exec (.dscfg 0 8) fresh) (fun t => decide ((t.channel 0).w = .eight))
      (by decide +kernel)
    exact ⟨t, h, by rw [of_decide_eq_true hp]; decide⟩
/-- Two blocks that differ in the words before `SEED` and in a sample with no byte left. -/
theorem witness_UnspecifiedContentsAreNeverRead :
    SameSpecified (facing [.command ⟨0x1000, 9, 0⟩] fresh)
      { facing [.command ⟨0x1000, 9, 0⟩] fresh with
        gen := { mt := (seedGen 77).mt, idx := 312, seeded := false }
        ch := [{ w := .notConfigured, rem := 0, sample := 5 }, Channel.atReset] } := by
  refine ⟨rfl, rfl, (fun h => nomatch h), rfl, ?_, rfl, rfl, rfl, rfl⟩
  exact .cons ⟨rfl, rfl, fun h => absurd rfl h⟩ (.cons ⟨rfl, rfl, fun h => absurd rfl h⟩ .nil)

/-- A width per row of R136, and a beat whose bits above the width of the view are not zero. -/
theorem witness_ViewsChangeNoBit : view .u8 0xC96D191CF6F6AEC9 = .unsigned 201 ∧
    view .i8 0xC96D191CF6F6AEC9 = .signed (-55) ∧ view .u16 0xC96D = .unsigned 51565 ∧
    view .u32 0xFFFFFFFFC96D191C = .unsigned 3379370268 ∧ view .u64 0xB5EE8CB6ABE457F8 = .unsigned 0xB5EE8CB6ABE457F8 ∧
    view .f32 0xFFFFFFFF7F800000 = .float32 ⟨0, 255, 0⟩ := by decide
/-- `halfWay` has `W = 2`: it serves `u16`, `i16` and `bool`, and no type of another width before it is configured
again; a channel of `W = 0` serves none. -/
theorem witness_PublicCallsAsCommands :
    Api.expand (.next .i16 0) (holding halfWay) = some (.dsnext 0) ∧
    Api.expand (.next .bool 0) (holding halfWay) = some (.dsnext 0) ∧
    Api.expand (.next .u8 0) (holding halfWay) = none ∧ Api.expand (.next .f32 0) (holding halfWay) = none ∧
    Api.expand (.next .bool 1) (holding halfWay) = none ∧ Api.expand (.next .f64 1) (holding halfWay) = some .next64 ∧
    (holding halfWay).halted = false ∧ (1 : BitVec 8).toNat < (holding halfWay).ch.length ∧
    Api.expand (.fillArray .i32 3) fresh = some (.fill 4 3) ∧
    Api.results (.fillArray .i16 2) ⟨.ok, [0xF6F6, 0x191C]⟩ = some [.signed (-2314), .signed 6428] ∧
    Api.results (.nextRange 0) ⟨.invalidArgument, []⟩ = none := by decide

end Sys2Proof.Tests
end

section
/-! PROOFS. The decoder, said once: which command the fields of a word name, what the operands do, which row of the
opcode map a word selects, and which words are legal. -/

namespace Sys2Proof

/-! ## The fields of a command word -/

/-- A command word is its three fields (R71). -/
theorem commandWord_ext_iff (x y : BitVec 16) :
    x = y ↔ opField x = opField y ∧ wbField x = wbField y ∧ chField x = chField y := by
  refine ⟨by rintro rfl; exact ⟨rfl, rfl, rfl⟩, fun ⟨hop, hwb, hch⟩ => ?_⟩
  simp only [opField, wbField, chField, ← BitVec.toNat_inj, BitVec.extractLsb'_toNat,
    Nat.shiftRight_eq_div_pow] at hop hwb hch ⊢
  have := x.isLt
  have := y.isLt
  omega

theorem opField_and (x y : BitVec 16) : opField (x &&& y) = opField x &&& opField y :=
  BitVec.extractLsb'_and

theorem wbField_and (x y : BitVec 16) : wbField (x &&& y) = wbField x &&& wbField y :=
  BitVec.extractLsb'_and

theorem chField_and (x y : BitVec 16) : chField (x &&& y) = chField x &&& chField y :=
  BitVec.extractLsb'_and

theorem toNat_opField_ofNat (w : Nat) : (opField (BitVec.ofNat 16 w)).toNat = w / 4096 % 16 := by
  simp only [opField, BitVec.extractLsb'_toNat, BitVec.toNat_ofNat, Nat.shiftRight_eq_div_pow]
  omega

theorem toNat_wbField_ofNat (w : Nat) : (wbField (BitVec.ofNat 16 w)).toNat = w / 256 % 16 := by
  simp only [wbField, BitVec.extractLsb'_toNat, BitVec.toNat_ofNat, Nat.shiftRight_eq_div_pow]
  omega

theorem toNat_chField_ofNat (w : Nat) : (chField (BitVec.ofNat 16 w)).toNat = w % 256 := by
  simp only [chField, BitVec.extractLsb'_toNat, BitVec.toNat_ofNat, Nat.shiftRight_eq_div_pow]
  omega

/-! ## The command the fields name -/

/-- The operand table of R75 as a relation: the command word has the opcode of `i`, its must-be-zero fields are 0,
and `i` holds the fields and operands it uses, whole. -/
def Instr.Reads (i : Instr) (c : Command) : Prop :=
  match i with
  | .seed s => (opField c.cw).toNat = 1 ∧ wbField c.cw = 0 ∧ chField c.cw = 0 ∧ s = c.opa
  | .next64 => (opField c.cw).toNat = 2 ∧ wbField c.cw = 0 ∧ chField c.cw = 0
  | .range max => (opField c.cw).toNat = 3 ∧ wbField c.cw = 0 ∧ chField c.cw = 0 ∧ max = c.opa
  | .range2 min max =>
    (opField c.cw).toNat = 4 ∧ wbField c.cw = 0 ∧ chField c.cw = 0 ∧ min = c.opa ∧ max = c.opb
  | .dscfg ch w => (opField c.cw).toNat = 5 ∧ w = wbField c.cw ∧ ch = chField c.cw
  | .dsnext ch => (opField c.cw).toNat = 6 ∧ wbField c.cw = 0 ∧ ch = chField c.cw
  | .fill w n => (opField c.cw).toNat = 7 ∧ w = wbField c.cw ∧ chField c.cw = 0 ∧ n = c.opa

theorem reads_of_decodeFields_ok (c : Command) (i : Instr) (h : decodeFields c = .ok i) : i.Reads c := by
  simp only [decodeFields] at h
  split at h <;> (try split at h) <;> cases h <;> simp_all [Instr.Reads]

theorem decodeFields_ok_of_reads (c : Command) (i : Instr) (h : i.Reads c) : decodeFields c = .ok i := by
  cases i <;> simp only [Instr.Reads] at h <;> simp [decodeFields, h]

/-- A word decodes to the command that reads it, where the block has that command. -/
theorem decode_ok_iff_reads (p : Params) (c : Command) (i : Instr) :
    decode p c = .ok i ↔ i.Reads c ∧ i.wellFormed p = true := by
  rw [decode_ok_iff]
  exact and_congr_left fun _ => ⟨reads_of_decodeFields_ok c i, decodeFields_ok_of_reads c i⟩

/-! ## The operands -/

/-- The command with its operands taken from `a` and `b` instead. -/
def Instr.withOperands (a b : Word) : Instr → Instr
  | .seed _ => .seed a
  | .next64 => .next64
  | .range _ => .range a
  | .range2 _ _ => .range2 a b
  | .dscfg c w => .dscfg c w
  | .dsnext c => .dsnext c
  | .fill w _ => .fill w a

theorem decodeFields_withOperands (cw : BitVec 16) (a b a' b' : Word) :
    decodeFields ⟨cw, a', b'⟩ = (decodeFields ⟨cw, a, b⟩).map (Instr.withOperands a' b') := by
  simp only [decodeFields]
  split <;> (try split) <;> rfl

theorem checkParams_withOperands (p : Params) (i : Instr) (a b : Word) :
    checkParams p (i.withOperands a b) = (checkParams p i).map (Instr.withOperands a b) := by
  cases i <;> simp only [Instr.withOperands, checkParams] <;> (try split) <;> rfl

/-- The operands go into the command as they stand and decide nothing else: not which command it is, nor whether
the word is illegal (R75). -/
theorem decode_withOperands (p : Params) (cw : BitVec 16) (a b a' b' : Word) :
    decode p ⟨cw, a', b'⟩ = (decode p ⟨cw, a, b⟩).map (Instr.withOperands a' b') := by
  unfold decode
  rw [decodeFields_withOperands cw a b a' b']
  cases decodeFields ⟨cw, a, b⟩ with
  | error e => rfl
  | ok i => exact checkParams_withOperands p i a' b'

/-- Settles O3: the fields by `decode_ok_iff_reads`, the operands by `decode_withOperands`. -/
theorem operandsAreUsedWholeOrIgnored : Obligations.OperandsAreUsedWholeOrIgnored := by
  intro p cw a b
  have hops := fun a' b' => decode_withOperands p cw a b a' b'
  cases h : decode p ⟨cw, a, b⟩ with
  | error e => simpa only [h, Except.map] using hops
  | ok i =>
    obtain ⟨hr, -⟩ := (decode_ok_iff_reads p _ i).1 h
    simp only [h, Except.map] at hops ⊢
    cases i <;> simp_all [Instr.Reads, Instr.withOperands]

/-- A command of some kind is a command of one of the seven kinds. -/
theorem Instr.exists_iff (P : Instr → Prop) :
    (∃ i, P i) ↔ (∃ s, P (.seed s)) ∨ P .next64 ∨ (∃ m, P (.range m)) ∨ (∃ lo hi, P (.range2 lo hi)) ∨
      (∃ c w, P (.dscfg c w)) ∨ (∃ c, P (.dsnext c)) ∨ ∃ w n, P (.fill w n) := by
  constructor
  · rintro ⟨i, h⟩
    cases i <;> grind
  · rintro (⟨_, h⟩ | h | ⟨_, h⟩ | ⟨_, _, h⟩ | ⟨_, _, h⟩ | ⟨_, h⟩ | ⟨_, _, h⟩) <;> exact ⟨_, h⟩

/-! ## The opcode map -/

theorem wellFormed_of_full (p : Params) (hn : p.nch = 256) (hr : p.hasRange = true) (hf : p.hasFill = true)
    (i : Instr) : i.wellFormed p = true := by
  cases i with
  | dscfg c w => simpa [Instr.wellFormed, hn] using c.isLt
  | dsnext c => simpa [Instr.wellFormed, hn] using c.isLt
  | _ => simp [Instr.wellFormed, hr, hf]

theorem exists_row_of_mnemonic (i : Instr) : ∃ r ∈ opcodeTable, r.mnemonic = i.mnemonic := by
  cases i <;> simp [opcodeTable, Instr.mnemonic]

/-- Every row looks at the whole opcode. -/
theorem opField_mask : ∀ r ∈ opcodeTable, opField r.mask = 15 := by decide

theorem opField_of_selects (cw : BitVec 16) : ∀ r ∈ opcodeTable, cw &&& r.mask = r.pattern →
    opField cw = opField r.pattern := by
  intro r hr h
  have hm : opField r.mask = 15 := opField_mask r hr
  rw [← h, opField_and, hm]
  exact BitVec.and_allOnes.symm

/-- No two rows have one opcode, so the rows are disjoint (R76). -/
theorem row_eq_of_opField_eq : ∀ r₁ ∈ opcodeTable, ∀ r₂ ∈ opcodeTable,
    opField r₁.pattern = opField r₂.pattern → r₁ = r₂ := by
  decide

/-- The patterns and masks of R76 against the fields of R83: a word selects a row exactly when some command of that
row reads it. -/
theorem selects_iff_exists_reads (c : Command) : ∀ r ∈ opcodeTable,
    (c.cw &&& r.mask = r.pattern ↔ ∃ i : Instr, i.Reads c ∧ i.mnemonic = r.mnemonic) := by
  simp only [commandWord_ext_iff (_ &&& _), opField_and, wbField_and, chField_and, Instr.exists_iff, Instr.Reads]
  generalize opField c.cw = op
  generalize wbField c.cw = wb
  generalize chField c.cw = ch
  have and4 (x : BitVec 4) : x &&& 15#4 = x := BitVec.and_allOnes
  have and8 (x : BitVec 8) : x &&& 255#8 = x := BitVec.and_allOnes
  have hop (k : BitVec 4) : op = k ↔ op.toNat = k.toNat := BitVec.toNat_inj.symm
  simp [opcodeTable, Instr.mnemonic, opField, wbField, chField, and4, and8, hop]

/-- Settles O4: a word selects a row exactly when a command of that row reads it, and the rows have different
opcodes. -/
theorem opcodeMapSelectsTheCommand : Obligations.OpcodeMapSelectsTheCommand := by
  refine ⟨by decide, fun cw r₁ h₁ r₂ h₂ s₁ s₂ => ?_, fun p c i h => ?_, fun p c hn hr hf r hmem hsel => ?_⟩
  · simp only [OpcodeRow.selects, beq_iff_eq] at s₁ s₂
    exact row_eq_of_opField_eq r₁ h₁ r₂ h₂
      ((opField_of_selects cw r₁ h₁ s₁).symm.trans (opField_of_selects cw r₂ h₂ s₂))
  · obtain ⟨hreads, -⟩ := (decode_ok_iff_reads p c i).1 h
    obtain ⟨r, hmem, hm⟩ := exists_row_of_mnemonic i
    exact ⟨r, hmem, hm, (selects_iff_exists_reads c r hmem).2 ⟨i, hreads, hm.symm⟩⟩
  · obtain ⟨i, hreads, hm⟩ := (selects_iff_exists_reads c r hmem).1 hsel
    exact ⟨i, (decode_ok_iff_reads p c i).2 ⟨hreads, wellFormed_of_full p hn hr hf i⟩, hm⟩

/-! ## Legal and illegal words -/

/-- The legal command words by the numbers in their fields: the complement of R77's four cases. -/
def LegalFields (p : Params) (op wb ch : Nat) : Prop :=
  ((op = 1 ∨ op = 2) ∧ wb = 0 ∧ ch = 0) ∨
  ((op = 3 ∨ op = 4) ∧ wb = 0 ∧ ch = 0 ∧ p.hasRange = true) ∨
  (op = 5 ∧ ch < p.nch) ∨
  (op = 6 ∧ wb = 0 ∧ ch < p.nch) ∨
  (op = 7 ∧ ch = 0 ∧ p.hasFill = true)

theorem exists_decode_ok_iff (p : Params) (c : Command) :
    (∃ i, decode p c = .ok i) ↔
      LegalFields p (opField c.cw).toNat (wbField c.cw).toNat (chField c.cw).toNat := by
  have hwb : wbField c.cw = 0 ↔ (wbField c.cw).toNat = 0 := BitVec.toNat_inj.symm
  have hch : chField c.cw = 0 ↔ (chField c.cw).toNat = 0 := BitVec.toNat_inj.symm
  simp only [decode_ok_iff_reads, Instr.exists_iff, Instr.Reads, Instr.wellFormed, LegalFields, ← hwb, ← hch]
  simp [or_and_right, or_assoc, and_assoc]

theorem decode_isOk_iff (p : Params) (c : Command) : (decode p c).isOk = true ↔ ∃ i, decode p c = .ok i := by
  cases decode p c <;> simp [Except.isOk, Except.toBool]

theorem exists_decode_error_iff_not_ok (p : Params) (c : Command) :
    (∃ e, decode p c = .error e) ↔ ¬ ∃ i, decode p c = .ok i := by
  cases decode p c <;> simp

theorem exists_decode_error_iff (p : Params) (c : Command) :
    (∃ e, decode p c = .error e) ↔
      ¬ LegalFields p (opField c.cw).toNat (wbField c.cw).toNat (chField c.cw).toNat := by
  rw [exists_decode_error_iff_not_ok, exists_decode_ok_iff]

/-- R77: the illegal words by the numbers in their fields. -/
theorem not_legalFields_iff (p : Params) (op wb ch : Nat) :
    ¬ LegalFields p op wb ch ↔
      (op = 0 ∨ 8 ≤ op) ∨
      ((op = 1 ∨ op = 2 ∨ op = 3 ∨ op = 4) ∧ (wb ≠ 0 ∨ ch ≠ 0)) ∨ (op = 6 ∧ wb ≠ 0) ∨ (op = 7 ∧ ch ≠ 0) ∨
      ((op = 5 ∨ op = 6) ∧ p.nch ≤ ch) ∨
      ((op = 3 ∨ op = 4) ∧ p.hasRange = false) ∨ (op = 7 ∧ p.hasFill = false) := by
  rcases Nat.lt_or_ge op 8 with h | h
  · interval_cases op <;> simp [LegalFields] <;> tauto
  · simp [LegalFields, h]; omega

/-! ## The legal words, listed and counted -/

/-- The words of `DSCFG` on a block with `nch` channels, in increasing order. -/
def dscfgWords (nch : Nat) : List Nat :=
  (List.range 16).flatMap fun wb => (List.range nch).map (0x5000 + 0x100 * wb + ·)

/-- The legal words in increasing order, on a block with both extensions: `SEED` to `RANGE2`, then the words of
`DSCFG`, of `DSNEXT` and of `FILL` (R78). -/
def legalWords (nch : Nat) : List Nat :=
  [0x1000, 0x2000, 0x3000, 0x4000] ++ dscfgWords nch ++ (List.range nch).map (0x6000 + ·) ++
    (List.range 16).map (0x7000 + 0x100 * ·)

theorem length_legalWords (nch : Nat) : (legalWords nch).length = 20 + 17 * nch := by
  simp [legalWords, dscfgWords, List.length_flatMap]
  omega

theorem sorted_append {l₁ l₂ : List Nat} (m : Nat) (h₁ : l₁.Pairwise (· < ·)) (h₂ : l₂.Pairwise (· < ·))
    (hlt : ∀ a ∈ l₁, a < m) (hge : ∀ b ∈ l₂, m ≤ b) : (l₁ ++ l₂).Pairwise (· < ·) :=
  List.pairwise_append.2 ⟨h₁, h₂, fun a ha b hb => (hlt a ha).trans_le (hge b hb)⟩

theorem sorted_map_range (n a b : Nat) (hb : 0 < b) : ((List.range n).map (a + b * ·)).Pairwise (· < ·) :=
  List.pairwise_map.2 (List.pairwise_lt_range.imp fun hxy => by gcongr)

theorem sorted_dscfgWords (nch : Nat) (h : nch ≤ 256) : (dscfgWords nch).Pairwise (· < ·) := by
  refine List.pairwise_flatMap.2 ⟨fun wb _ => ?_, List.pairwise_lt_range.imp fun hxy => ?_⟩
  · simpa using sorted_map_range nch (0x5000 + 0x100 * wb) 1 (by decide)
  · simp; omega

theorem sorted_legalWords (nch : Nat) (h : nch ≤ 256) : (legalWords nch).Pairwise (· < ·) := by
  have hdsnext : ((List.range nch).map (0x6000 + ·)).Pairwise (· < ·) := by
    simpa using sorted_map_range nch 0x6000 1 (by decide)
  have hfill := sorted_map_range 16 0x7000 0x100 (by decide)
  refine sorted_append 0x7000 (sorted_append 0x6000 (sorted_append 0x5000 (by decide) (sorted_dscfgWords nch h) ?_ ?_)
    hdsnext ?_ ?_) hfill ?_ ?_
  all_goals simp [dscfgWords] <;> grind

theorem mem_legalWords_iff (p : Params) (hn : p.nch ≤ 256) (hr : p.hasRange = true) (hf : p.hasFill = true)
    (w : Nat) :
    w ∈ legalWords p.nch ↔ w < 65536 ∧ (decode p ⟨BitVec.ofNat 16 w, 0, 0⟩).isOk = true := by
  rw [decode_isOk_iff, exists_decode_ok_iff, toNat_opField_ofNat, toNat_wbField_ofNat, toNat_chField_ofNat]
  simp only [LegalFields, hr, hf, legalWords, dscfgWords, List.mem_append, List.mem_cons, List.not_mem_nil,
    List.mem_flatMap, List.mem_map, List.mem_range, and_true, or_false]
  constructor
  · rintro (((hfixed | ⟨wb, hwb, ch, hch, rfl⟩) | ⟨ch, hch, rfl⟩) | ⟨wb, hwb, rfl⟩)
    · rcases hfixed with rfl | rfl | rfl | rfl <;> simp
    · exact ⟨by omega, .inr (.inr (.inl ⟨by omega, by omega⟩))⟩
    · exact ⟨by omega, .inr (.inr (.inr (.inl ⟨by omega, by omega, by omega⟩)))⟩
    · exact ⟨by omega, .inr (.inr (.inr (.inr ⟨by omega, by omega⟩)))⟩
  · rintro ⟨hw, h | h | ⟨hop, hch⟩ | ⟨hop, hwb, hch⟩ | ⟨hop, hch⟩⟩
    · omega
    · omega
    · exact .inl (.inl (.inr ⟨w / 256 % 16, by omega, w % 256, hch, by omega⟩))
    · exact .inl (.inr ⟨w % 256, hch, by omega⟩)
    · exact .inr ⟨w / 256 % 16, by omega, by omega⟩

theorem legal_perm_legalWords (p : Params) (hn : p.nch ≤ 256) (hr : p.hasRange = true) (hf : p.hasFill = true) :
    ((List.range 65536).filter fun w => (decode p ⟨BitVec.ofNat 16 w, 0, 0⟩).isOk).Perm (legalWords p.nch) := by
  have hnodup : (legalWords p.nch).Nodup := (sorted_legalWords p.nch hn).imp Nat.ne_of_lt
  refine (List.perm_ext_iff_of_nodup (List.nodup_range.filter _) hnodup).2 fun w => ?_
  rw [List.mem_filter, List.mem_range, mem_legalWords_iff p hn hr hf]

/-- Settles O6: the words that decode are a permutation of `legalWords`, which can be counted. -/
theorem legalWordsCounted : Obligations.LegalWordsCounted := by
  refine ⟨fun p hp hr hf => ?_, fun w hw => ?_⟩
  · have hn : p.nch ≤ 256 := of_decide_eq_true (Bool.and_eq_true_iff.1 hp).2
    rw [(legal_perm_legalWords p hn hr hf).length_eq, length_legalWords]
  · have hlisted : (legalWords 1).Perm ([0x1000, 0x2000, 0x3000, 0x4000, 0x6000] ++
        (List.range 16).map (fun k => 0x5000 + 0x100 * k) ++ (List.range 16).map (fun k => 0x7000 + 0x100 * k)) := by
      decide
    rw [← hlisted.mem_iff, mem_legalWords_iff ⟨1, true, true⟩ (by decide) rfl rfl]
    exact (and_iff_right hw).symm

end Sys2Proof
end

section
/-! PROOFS. A step on a presented command: the decode procedure of R83 and the response of R81. -/

namespace Sys2Proof.Machine

/-! ## A step on a presented command -/

section Presented

variable {s : State} {c : Command} {rest : List Input} (hin : s.inputs = .command c :: rest)
include hin

theorem step_of_decode_ok {i : Instr} (hd : decode s.params c = .ok i) : step s = exec i (s.withInputs rest) := by
  simp [step, takeInput, hin, runInput, runCommand, hd]

theorem step_of_decode_error {e : Illegal} (hd : decode s.params c = .error e) :
    step s = .next ((s.withInputs rest).answer ⟨if s.halted then .halted else .illegalCommand, []⟩) := by
  rcases step_cases s with ⟨h, -⟩ | ⟨_, h, -⟩ | ⟨_, _, _, h, hd', -⟩ | ⟨_, _, _, h, -, hs⟩ <;>
    rw [hin] at h <;> cases h
  · rw [hd] at hd'; cases hd'
  · exact hs

theorem step_of_halted (hh : s.halted = true) :
    step s = .next ((s.withInputs rest).answer ⟨.halted, []⟩) := by
  cases hd : decode s.params c with
  | ok i => rw [step_of_decode_ok hin hd]; exact exec_of_halted i _ hh
  | error e => rw [step_of_decode_error hin hd, hh]; rfl

theorem step_of_illegal (hh : s.halted = false) (hd : ∃ e, decode s.params c = .error e) :
    step s = .next ((s.withInputs rest).answer ⟨.illegalCommand, []⟩) := by
  obtain ⟨e, hd⟩ := hd
  rw [step_of_decode_error hin hd, hh]; rfl

/-- A word that no command of the block reads is illegal. -/
theorem step_of_no_reader (hh : s.halted = false) (h : ∀ i : Instr, i.Reads c → i.wellFormed s.params = false) :
    step s = .next ((s.withInputs rest).answer ⟨.illegalCommand, []⟩) := by
  refine step_of_illegal hin hh ((exists_decode_error_iff_not_ok _ _).2 ?_)
  rintro ⟨i, hi⟩
  obtain ⟨hr, hw⟩ := (decode_ok_iff_reads _ _ _).1 hi
  simp [h i hr] at hw

/-- A line of R83: the tests of the line, then the command it names. -/
theorem step_line (hh : s.halted = false) {i : Instr} {bad : Prop} [Decidable bad]
    (hbad : bad → ∀ j : Instr, j.Reads c → j.wellFormed s.params = false)
    (hgood : ¬ bad → i.Reads c ∧ i.wellFormed s.params = true) :
    step s = if bad then .next ((s.withInputs rest).answer ⟨.illegalCommand, []⟩) else exec i (s.withInputs rest) := by
  split
  · exact step_of_no_reader hin hh (hbad ‹_›)
  · exact step_of_decode_ok hin ((decode_ok_iff_reads _ _ _).2 (hgood ‹_›))

end Presented

/-- Settles O5: R77's cases are the complement of the legal fields. -/
theorem illegalWordsAreExactlyTheseFour : Obligations.IllegalWordsAreExactlyTheseFour :=
  ⟨fun p c => (exists_decode_error_iff p c).trans (not_legalFields_iff p _ _ _),
    fun _ _ _ e hin hh hd => step_of_illegal hin hh ⟨e, hd⟩⟩

/-- Settles O10: each opcode is one use of `step_line`. -/
theorem stepFollowsTheDecodeProcedure : Obligations.StepFollowsTheDecodeProcedure := by
  intro s cw opa opb rest hin u refuse illegal wb ch
  cases hh : s.halted with
  | true => exact step_of_halted hin hh
  | false =>
    simp only [Bool.false_eq_true, if_false]
    split
    case h_8 => exact step_of_no_reader hin hh fun j hj => by cases j <;> simp_all [Instr.Reads, opField]
    all_goals
      refine step_line hin hh (fun hb j hj => ?_) (fun hb => ?_)
      · cases j <;> simp_all [Instr.Reads, Instr.wellFormed, opField, wbField, chField, wb, ch]
      · simp_all [Instr.Reads, Instr.wellFormed, opField, wbField, chField, wb, ch]

/-! ## The shape of a response -/

/-- R81: the beats of an OK response to `i` from state `s`, by number and by size. -/
def BeatsFit (i : Instr) (s : State) (data : List Word) : Prop :=
  match i with
  | .seed _ => data = []
  | .dscfg _ _ => data = []
  | .next64 => data.length = 1
  | .range _ => data.length = 1
  | .range2 _ _ => data.length = 1
  | .dsnext c => data.length = 1 ∧ ∀ b ∈ data, b.toNat < 2 ^ (8 * (s.channel c.toNat).w.bytes)
  | .fill w n => data.length = n.toNat ∧ ∀ b ∈ data, b.toNat < 2 ^ (8 * w.toNat)

theorem takeWindow_lt (k : Channel) (g : Gen) : (takeWindow k g).1.toNat < 2 ^ (8 * k.w.bytes) := by
  rw [takeWindow_value, window_toNat]
  exact Nat.mod_lt _ (by positivity)

theorem takeWindows_lt (n : Nat) (k : Channel) (g : Gen) :
    ∀ b ∈ (takeWindows n k g).1, b.toNat < 2 ^ (8 * k.w.bytes) := by
  induction n generalizing k g with
  | zero => simp [takeWindows]
  | succ n ih =>
    have := ih (takeWindow k g).2.1 (takeWindow k g).2.2
    rw [takeWindow_w] at this
    simpa [takeWindows_succ, takeWindow_lt] using this

theorem exec_response_shape : ∀ i s t, exec i s = .next t → ∃ r : Response, t.responses = s.responses ++ [r] ∧
    (r.status ≠ .ok → r.data = []) ∧ (r.status = .ok → BeatsFit i s r.data) := by
  apply exec_next_ind
  case hFault => exact fun i s f hf _ => ⟨_, rfl, fun _ => rfl, fun h => absurd h hf⟩
  case hViolation => exact fun wb n s _ _ => ⟨_, rfl, fun _ => rfl, nofun⟩
  case hDsnext =>
    exact fun c s _ _ => ⟨_, rfl, fun h => absurd rfl h, fun _ => ⟨rfl, by simp [takeWindow_lt]⟩⟩
  case hFill =>
    intro wb n w s _ hw
    refine ⟨_, rfl, fun h => absurd rfl h, fun _ => ⟨takeWindows_length .., ?_⟩⟩
    rw [← (widthOfField_some wb w hw).1]
    exact takeWindows_lt n.toNat (Channel.configured w 0) s.gen
  all_goals intros; exact ⟨_, rfl, fun h => absurd rfl h, fun _ => rfl⟩

/-- Settles O12: the shape of what `exec` answers, carried to the step. -/
theorem responseShape : Obligations.ResponseShape := by
  intro s t c rest hin hstep
  cases hd : decode s.params c with
  | ok i => exact exec_response_shape i (s.withInputs rest) t ((step_of_decode_ok hin hd).symm.trans hstep)
  | error e =>
    rw [step_of_decode_error hin hd] at hstep
    cases hstep
    refine ⟨_, rfl, fun _ => rfl, ?_⟩
    cases s.halted <;> nofun

end Sys2Proof.Machine
end

section
/-! PROOFS. The generator: the twist word by word and as the pass in place, the mixing function and the temper, and
the draws by number, with what `SEED` and `NEXT64` make of them. -/

namespace Sys2Proof.Machine

/-! ## The twist word by word -/

theorem twistLow_getElem (o : Vector Word 312) (i : Nat) (h : i < 156) :
    (twistLow o.toList)[i]'(by rw [twistLow_length _ (by simp)]; exact h) = o[i + 156] ^^^ mix o[i] o[i + 1] := by
  simp [twistLow, Nat.add_comm 156 i]

theorem twist_getElem_low (o : Vector Word 312) (i : Nat) (h : i < 156) :
    (twist o)[i] = o[i + 156] ^^^ mix o[i] o[i + 1] := by
  rw [← twistLow_getElem o i h]
  simp [twist, twistLow_length, h]

theorem twist_getElem_high (o : Vector Word 312) (i : Nat) (h : i < 155) :
    (twist o)[i + 156] = (twist o)[i] ^^^ mix o[i + 156] o[i + 157] := by
  rw [twist_getElem_low o i (by omega), ← twistLow_getElem o i (by omega)]
  simp [twist, twistHigh, twistLow_length, h, Nat.add_comm 156 i]

theorem twist_getElem_last (o : Vector Word 312) :
    (twist o)[311] = (twist o)[155] ^^^ mix o[311] (twist o)[0] := by
  rw [twist_getElem_low o 155 (by decide), twist_getElem_low o 0 (by decide), ← twistLow_getElem o 155 (by decide),
    ← twistLow_getElem o 0 (by decide)]
  simp [twist, twistLast, twistLow_length, twistHigh_length]

/-- Settles O26: the three lines of R104. -/
theorem twistClosedForm : Obligations.TwistClosedForm := fun o =>
  ⟨fun i => twist_getElem_low o i i.isLt, fun i => twist_getElem_high o i i.isLt, twist_getElem_last o⟩

/-! ## The twist as the pass in place -/

theorem wordAt_of_lt (mt : Vector Word 312) {i : Nat} (h : i < 312) : wordAt mt i = mt[i] := by
  simp [wordAt, Nat.mod_eq_of_lt h]

@[simp] theorem wordAt_add_312 (mt : Vector Word 312) (i : Nat) : wordAt mt (i + 312) = wordAt mt i := by
  simp [wordAt]

@[simp] theorem wordAt_mod (mt : Vector Word 312) (i : Nat) : wordAt mt (i % 312) = wordAt mt i := by
  simp [wordAt]

/-- The three lines of R104 as one, the indices modulo 312: in the vector `v` that step `i` of R103 finds, the words
before `i` are new ones and the others old ones, and the step makes the new word `i`. -/
theorem twist_wordAt (o v : Vector Word 312) (i : Nat) (h : i < 312)
    (hv : ∀ (j : Nat) (hj : j < 312), v[j] = if j < i then (twist o)[j] else o[j]) :
    wordAt v (i + 156) ^^^ mix (wordAt v i) (wordAt v (i + 1)) = (twist o)[i] := by
  have hi : wordAt v i = o[i] := by rw [wordAt_of_lt v h, hv i h, if_neg (Nat.lt_irrefl i)]
  rw [hi]
  by_cases hlow : i < 156
  · rw [wordAt_of_lt v (by omega), wordAt_of_lt v (by omega), hv, hv, if_neg (by omega), if_neg (by omega),
      twist_getElem_low o i hlow]
  obtain ⟨k, rfl⟩ : ∃ k, i = k + 156 := ⟨i - 156, by omega⟩
  have hk : wordAt v (k + 156 + 156) = (twist o)[k] := by
    rw [wordAt_add_312, wordAt_of_lt v (by omega), hv, if_pos (by omega)]
  rw [hk]
  by_cases hhigh : k < 155
  · rw [wordAt_of_lt v (by omega), hv, if_neg (by omega), twist_getElem_high o k hhigh]
  obtain rfl : k = 155 := by omega
  rw [wordAt_add_312 v 0, wordAt_of_lt v (by decide), hv, if_pos (by decide), twist_getElem_last o]

/-- The pass of R103 after `n` steps: new words before `n`, old ones from `n` on. -/
theorem twistPass_getElem (o : Vector Word 312) (n : Nat) (hn : n ≤ 312) (j : Nat) (hj : j < 312) :
    (twistPass o n)[j] = if j < n then (twist o)[j] else o[j] := by
  induction n generalizing j with
  | zero => simp [twistPass]
  | succ n ih =>
    have hword := twist_wordAt o (twistPass o n) n hn (ih (by omega))
    simp only [twistPass, hword, Nat.mod_eq_of_lt (show n < 312 from hn), Vector.getElem_set, ih (by omega)]
    by_cases hjn : n = j
    · subst hjn
      rw [if_pos rfl, if_pos n.lt_succ_self]
    · rw [if_neg hjn]
      exact if_congr (by omega) rfl rfl

theorem twist_eq_twistInPlace (o : Vector Word 312) : twist o = twistInPlace o := by
  ext j hj
  rw [twistInPlace, twistPass_getElem o 312 le_rfl j hj, if_pos hj]

/-- Settles O25: `twistPass_getElem` at the end of the pass, and the draw at the end of the vector. -/
theorem twistIsTheInPlacePass : Obligations.TwistIsTheInPlacePass := by
  refine ⟨twist_eq_twistInPlace, fun g hg => ?_⟩
  rw [← twist_eq_twistInPlace]
  exact draw_of_full g hg

/-! ## The mixing function and the temper -/

/-- The word `mix` shifts: the upper 33 bits of `u` before the lower 31 bits of `l` (R105). -/
def joined (u l : Word) : Word := u.extractLsb' 31 33 ++ l.extractLsb' 0 31

theorem upper_append_lower (x : Word) : x.extractLsb' 31 33 ++ x.extractLsb' 0 31 = x := by
  rw [BitVec.extractLsb'_append_extractLsb'_eq_extractLsb' (show 31 = 0 + 31 from rfl)]
  exact BitVec.extractLsb'_eq_self

theorem and_upperMask (u : Word) : u &&& upperMask = u.extractLsb' 31 33 ++ 0#31 := by
  have hmask : upperMask = BitVec.allOnes 33 ++ 0#31 := by decide
  conv_lhs => rw [← upper_append_lower u, hmask, BitVec.and_append]
  simp only [BitVec.and_allOnes, BitVec.and_zero]

theorem and_lowerMask (l : Word) : l &&& lowerMask = 0#33 ++ l.extractLsb' 0 31 := by
  have hmask : lowerMask = 0#33 ++ BitVec.allOnes 31 := by decide
  conv_lhs => rw [← upper_append_lower l, hmask, BitVec.and_append]
  simp only [BitVec.and_allOnes, BitVec.and_zero]

/-- The two masks select disjoint bits. -/
theorem masked_and (u l : Word) : (u &&& upperMask) &&& (l &&& lowerMask) = 0 := by
  rw [and_upperMask, and_lowerMask, BitVec.and_append, BitVec.and_zero, BitVec.zero_and]
  rfl

theorem masked_or (u l : Word) : (u &&& upperMask) ||| (l &&& lowerMask) = joined u l := by
  rw [and_upperMask, and_lowerMask, BitVec.or_append, BitVec.or_zero, BitVec.zero_or]
  rfl

theorem masked_add (u l : Word) : (u &&& upperMask) + (l &&& lowerMask) = joined u l := by
  rw [BitVec.add_eq_or_of_and_eq_zero _ _ (masked_and u l), masked_or]

theorem masked_add_lt (u l : Word) : (u &&& upperMask).toNat + (l &&& lowerMask).toNat < 2 ^ 64 := by
  rw [← BitVec.toNat_add_of_and_eq_zero (masked_and u l)]
  exact BitVec.isLt _

theorem joined_lsb (u l : Word) : (joined u l).getLsbD 0 = l.getLsbD 0 := by
  rw [joined, BitVec.getLsbD_append, if_pos (by decide), BitVec.getLsbD_extractLsb']
  rfl

theorem mix_eq_joined (u l : Word) :
    mix u l = if (joined u l).getLsbD 0 then joined u l >>> 1 ^^^ twistMatrix else joined u l >>> 1 := by
  simp only [mix, masked_add]

/-- Settles O27: `mix` is a function of the joined word, whose bit 0 is that of `l`. -/
theorem mixJoinsUpperAndLowerBits : Obligations.MixJoinsUpperAndLowerBits := by
  refine ⟨fun u l => ?_, fun u l u' l' hu hl => ?_, by decide⟩
  · exact ⟨by rw [mix_eq_joined, joined_lsb]; rfl, masked_add u l, masked_or u l, masked_add_lt u l, joined_lsb u l⟩
  · have hjoined : joined u l = joined u' l' := by rw [joined, joined, hu, hl]
    rw [mix_eq_joined, mix_eq_joined, hjoined]

/-- Settles O28: the steps are those of the definition, and the values are computed. -/
theorem temperFourSteps : Obligations.TemperFourSteps := by
  refine ⟨?_, by decide⟩
  rintro y0 _ _ _ rfl rfl rfl
  rfl

/-! ## The draws by number -/

/-- Settles O29: the two sides of the cursor's boundary are `draw_of_lt` and `draw_of_full`. -/
theorem drawTakesTheWordAtTheCursor : Obligations.DrawTakesTheWordAtTheCursor := by
  refine fun g => ⟨fun h => ?_, fun h => ?_, rfl, Nat.le_add_left 1 _⟩
  · rw [draw_of_lt g h]; exact ⟨rfl, rfl, rfl⟩
  · rw [draw_of_full g h]; exact ⟨rfl, rfl, rfl⟩

/-- A draw returns the temper of the word just before the cursor it leaves. -/
theorem draw_value (g : Gen) : (draw g).1 = temper (wordAt (draw g).2.mt ((draw g).2.idx.val - 1)) := by
  obtain ⟨hlt, hfull, -⟩ := drawTakesTheWordAtTheCursor g
  rcases Nat.lt_or_ge g.idx.val 312 with h | h
  · obtain ⟨hval, hmt, hidx⟩ := hlt h
    rw [hval, hmt, hidx, Nat.add_sub_cancel, wordAt_of_lt _ h]
  · obtain ⟨hval, hmt, hidx⟩ := hfull (by omega)
    rw [hval, hmt, hidx, Nat.sub_self, wordAt_of_lt _ (by decide)]

/-- Where `k` draws leave a GEN whose cursor stood at 312: the twist has run once for every 312 draws begun, and
the cursor runs from 1 to 312 over and over (R109). -/
theorem genAfter_of_full (g : Gen) (h : g.idx.val = 312) (k : Nat) :
    (genAfter k g).mt = twist^[(k + 311) / 312] g.mt ∧ (genAfter k g).idx.val = (k + 311) % 312 + 1 := by
  induction k with
  | zero => exact ⟨rfl, h⟩
  | succ k ih =>
    obtain ⟨hmt, hidx⟩ := ih
    obtain ⟨hlt, hfull, -⟩ := drawTakesTheWordAtTheCursor (genAfter k g)
    rcases Nat.lt_or_ge (genAfter k g).idx.val 312 with hi | hi
    · obtain ⟨-, hmt', hidx'⟩ := hlt hi
      have hquot : (k + 1 + 311) / 312 = (k + 311) / 312 := by omega
      exact ⟨by rw [genAfter, hmt', hmt, hquot], by rw [genAfter, hidx']; omega⟩
    · obtain ⟨-, hmt', hidx'⟩ := hfull (by omega)
      have hquot : (k + 1 + 311) / 312 = (k + 311) / 312 + 1 := by omega
      exact ⟨by rw [genAfter, hmt', hmt, hquot, Function.iterate_succ_apply'], by rw [genAfter, hidx']; omega⟩

/-- Settles O31: `genAfter_of_full` from the GEN of `SEED`, before draw `k` and after it. -/
theorem drawsAfterSeedByNumber : Obligations.DrawsAfterSeedByNumber := by
  intro seed k hk
  obtain ⟨j, rfl⟩ : ∃ j, k = j + 1 := ⟨k - 1, by omega⟩
  obtain ⟨-, hbefore⟩ := genAfter_of_full (seedGen seed) rfl j
  obtain ⟨hmt, hidx⟩ := genAfter_of_full (seedGen seed) rfl (j + 1)
  rw [Nat.add_sub_cancel]
  refine ⟨by rw [hbefore]; omega, ?_, hmt, by rw [hidx]; omega⟩
  rw [drawAt, draw_value, ← genAfter, hmt, hidx, Nat.add_sub_cancel, wordAt_mod, Nat.add_assoc j 1 311,
    wordAt_add_312]

/-! ## The commands -/

theorem seedGen_getElem (seed : Word) (j : Nat) (h : j < 312) :
    (seedGen seed).mt[j] = (seedWords 312 0 seed)[j]'(by rwa [seedWords_length]) := by
  simp only [seedGen, Vector.getElem_mk, List.getElem_toArray]

set_option maxRecDepth 10000 in
/-- The values R101 and R108 list for seed 5489; the depth is that of 312 words, each made from the one before. -/
theorem seed_5489_values :
    ((seedGen 5489).mt[1] = 0xB5347F47116BD3DE ∧ (seedGen 5489).mt[2] = 0x9165B5762D1A61AE ∧
      (seedGen 5489).mt[311] = 0xC65AE95C45A5D796) ∧
    (twist (seedGen 5489).mt)[0] = 0x245B1C66F2BDC210 := by
  decide

/-- Settles O23: GEN is `seedGen`, whose words are those of `seedWords`. -/
theorem seedExpandsTheSeed : Obligations.SeedExpandsTheSeed := by
  refine ⟨fun _ => rfl, fun seed s hs =>
    ⟨(seedGen seed).mt, exec_of_ready _ _ (ready_seed seed s hs), rfl, fun i => ?_, ?_⟩⟩
  · simp only [seedGen_getElem, seedWords_getElem_succ 312 0 seed i.val (by omega), Nat.zero_add]
    rfl
  · rintro rfl
    exact seed_5489_values.1

/-- `NEXT64` on a block that is not halted is one draw, or `NOT_SEEDED` (R108). -/
theorem exec_next64 (s : State) (h : s.halted = false) :
    exec .next64 s = if s.gen.seeded then .next ((s.withGen (draw s.gen).2).answer ⟨.ok, [(draw s.gen).1]⟩)
      else .next (s.answer ⟨.notSeeded, []⟩) := by
  cases hs : s.gen.seeded with
  | false => exact exec_of_unseeded .next64 s h rfl rfl hs
  | true => exact exec_of_ready .next64 s (ready_next64 s h hs)

/-- Settles O30: `exec_next64` with the draw on each side of the cursor's boundary. -/
theorem next64ReturnsTheNextWord : Obligations.Next64ReturnsTheNextWord := by
  refine ⟨rfl, fun s hh => ⟨fun hs => ?_, fun hs h => ?_, fun hs h => ?_⟩, seed_5489_values.2, by decide⟩
  · rw [exec_next64 s hh, hs]; rfl
  · rw [exec_next64 s hh, hs, draw_of_lt s.gen h]; rfl
  · rw [exec_next64 s hh, hs, draw_of_full s.gen h]; rfl

/-- Settles O32: in `exec_next64` the answer and the next GEN are functions of GEN. -/
theorem next64DependsOnGenAlone : Obligations.Next64DependsOnGenAlone := by
  intro s u t hs hu hg ht
  rw [exec_next64 s hs, hg] at ht
  rw [exec_next64 u hu]
  cases hseeded : u.gen.seeded <;> rw [hseeded] at ht <;> cases ht
  · exact ⟨_, _, rfl, hg.symm, rfl, rfl⟩
  · exact ⟨_, _, rfl, rfl, rfl, rfl⟩

end Sys2Proof.Machine
end

section
/-! PROOFS. The downsampler: what `DSCFG` and `DSNEXT` do on a block that lets them run, the windows of one sample,
and the channel that is as wide as the sample. -/

namespace Sys2Proof.Machine

/-! ## Widths -/

theorem Width.bytes_pos {w : Width} (h : w ≠ .notConfigured) : 0 < w.bytes := by
  cases w <;> simp_all [Width.bytes]

theorem Width.bytes_le_eight (w : Width) : w.bytes ≤ 8 := by
  cases w <;> simp [Width.bytes]

/-- The windows of a sample use up its 8 bytes (R133). -/
theorem Width.bytes_mul_div {w : Width} (h : w ≠ .notConfigured) : w.bytes * (8 / w.bytes) = 8 := by
  cases w <;> simp_all [Width.bytes]

theorem exists_widthOfField {wb : BitVec 4} (h0 : wb.toNat ≠ 0) (h8 : 8 % wb.toNat = 0) :
    ∃ w, widthOfField wb = some w := by
  cases hw : widthOfField wb with
  | some w => exact ⟨w, rfl⟩
  | none => rcases (widthOfField_none_iff wb).1 hw with h | h <;> contradiction

/-! ## One window -/

/-- The two cases of a refill, by the number of bytes left. -/
theorem refill_eq (k : Channel) (g : Gen) :
    refill k g = if k.rem.val = 0 then ({ k with rem := 8, sample := (draw g).1 }, (draw g).2) else (k, g) := by
  by_cases h : k.rem = 0
  · rw [refill_of_rem_zero k g h, if_pos (Fin.val_eq_zero_iff.2 h)]
  · rw [refill_of_rem_pos k g h, if_neg (Fin.val_ne_zero_iff.2 h)]

theorem refill_rem (k : Channel) (g : Gen) :
    (refill k g).1.rem.val = if k.rem.val = 0 then 8 else k.rem.val := by
  rw [refill_eq]; split <;> rfl

theorem refill_sample (k : Channel) (g : Gen) :
    (refill k g).1.sample = if k.rem.val = 0 then (draw g).1 else k.sample := by
  rw [refill_eq]; split <;> rfl

theorem refill_gen (k : Channel) (g : Gen) :
    (refill k g).2 = if k.rem.val = 0 then (draw g).2 else g := by
  rw [refill_eq]; split <;> rfl

/-- `rem` never falls below 0 (R132): the bytes left on a channel that meets R31 are a multiple of its width. -/
theorem Channel.Inv.bytes_le_refill {k : Channel} (h : k.Inv) (hw : k.w ≠ .notConfigured) (g : Gen) :
    k.w.bytes ≤ (refill k g).1.rem.val := by
  simp only [Channel.Inv, if_neg hw] at h
  rw [refill_rem]
  split
  case isTrue => exact k.w.bytes_le_eight
  case isFalse hr => exact Nat.le_of_dvd (Nat.pos_of_ne_zero hr) (Nat.dvd_of_mod_eq_zero h.2)

/-- The beat is the window of the channel as the command leaves it. -/
theorem takeWindow_value_eq_window (k : Channel) (g : Gen) :
    (takeWindow k g).1 = window k.w (takeWindow k g).2.1.rem.val (takeWindow k g).2.1.sample := by
  rw [takeWindow_value, takeWindow_rem, takeWindow_sample]

theorem window_eq_ofNat (w : Width) (rem : Nat) (sample : Word) :
    window w rem sample = BitVec.ofNat 64 (sample.toNat / 2 ^ (8 * rem) % 2 ^ (8 * w.bytes)) := by
  rw [Nat.mul_comm 8 rem, ← window_toNat, BitVec.ofNat_toNat, BitVec.setWidth_eq]

/-! ## DSCFG -/

theorem exec_dscfg_of_legal {c : BitVec 8} {wb : BitVec 4} {s : State} {w : Width} (h : s.halted = false)
    (hc : c.toNat < s.ch.length) (hw : widthOfField wb = some w) :
    exec (.dscfg c wb) s =
      .next ((s.withChannel c.toNat (Channel.configured w (s.channel c.toNat).sample)).answer ⟨.ok, []⟩) := by
  simp only [exec_of_ready _ _ (ready_dscfg c wb s h hc), execOpen, hw, respond_eq]

theorem exec_dscfg_of_illegal {c : BitVec 8} {wb : BitVec 4} {s : State} (h : s.halted = false)
    (hc : c.toNat < s.ch.length) (hw : widthOfField wb = none) :
    exec (.dscfg c wb) s = .next (s.answer ⟨.invalidArgument, []⟩) := by
  simp only [exec_of_ready _ _ (ready_dscfg c wb s h hc), execOpen, hw, raise_eq]

/-- Settles O36: the width check decides between `exec_dscfg_of_legal` and `exec_dscfg_of_illegal`. -/
theorem dscfgConfiguresTheChannel : Obligations.DscfgConfiguresTheChannel := by
  refine fun c wb s hh hc => ⟨rfl, fun h0 h8 => ?_, fun hbad => ?_⟩
  · obtain ⟨w, hw⟩ := exists_widthOfField h0 h8
    obtain ⟨hbytes, -⟩ := widthOfField_some wb w hw
    refine ⟨_, exec_dscfg_of_legal hh hc hw, rfl, by simp, ?_⟩
    simp only [State.answer_channel, State.withChannel_channel_same s c.toNat _ hc]
    exact ⟨hbytes, rfl, rfl, fun d hd => s.withChannel_channel_other c.toNat d _ hd.symm⟩
  · exact exec_dscfg_of_illegal hh hc ((widthOfField_none_iff wb).2 hbad)

/-! ## DSNEXT -/

/-- Tests 1 to 4 of R188 for `DSNEXT c` have passed: its channel can serve a window. -/
def Serves (c : BitVec 8) (s : State) : Prop :=
  s.halted = false ∧ c.toNat < s.ch.length ∧ s.gen.seeded = true ∧ (s.channel c.toNat).w ≠ .notConfigured

section
variable {c : BitVec 8} {s : State} (h : Serves c s)
include h

theorem Serves.halted : s.halted = false := h.1
theorem Serves.exists_channel : c.toNat < s.ch.length := h.2.1
theorem Serves.seeded : s.gen.seeded = true := h.2.2.1
theorem Serves.configured : (s.channel c.toNat).w ≠ .notConfigured := h.2.2.2

end

/-- The state a `DSNEXT c` leads to when channel `c` serves a window (R132). -/
def State.afterWindow (c : BitVec 8) (s : State) : State :=
  ((s.withChannel c.toNat (takeWindow (s.channel c.toNat) s.gen).2.1).withGen
    (takeWindow (s.channel c.toNat) s.gen).2.2).answer ⟨.ok, [(takeWindow (s.channel c.toNat) s.gen).1]⟩

theorem afterWindow_gen (c : BitVec 8) (s : State) :
    (s.afterWindow c).gen = (refill (s.channel c.toNat) s.gen).2 := rfl

theorem afterWindow_channel {c : BitVec 8} {s : State} (hc : c.toNat < s.ch.length) :
    (s.afterWindow c).channel c.toNat = (takeWindow (s.channel c.toNat) s.gen).2.1 :=
  s.withChannel_channel_same c.toNat _ hc

theorem afterWindow_channel_other {c : BitVec 8} (s : State) {d : Nat} (h : d ≠ c.toNat) :
    (s.afterWindow c).channel d = s.channel d :=
  s.withChannel_channel_other c.toNat d _ h.symm

@[simp] theorem afterWindow_ch_length (c : BitVec 8) (s : State) : (s.afterWindow c).ch.length = s.ch.length := by
  simp [State.afterWindow]

theorem exec_dsnext {c : BitVec 8} {s : State} (h : Serves c s) :
    exec (.dsnext c) s = .next (s.afterWindow c) := by
  rw [exec_of_ready _ _ (ready_dsnext c s h.halted h.exists_channel h.seeded)]
  simp only [execOpen, if_neg h.configured, respond_eq, State.afterWindow]

theorem exec_dsnext_of_not_configured {c : BitVec 8} {s : State} (h : s.halted = false) (hc : c.toNat < s.ch.length)
    (hs : s.gen.seeded = true) (hw : (s.channel c.toNat).w = .notConfigured) :
    exec (.dsnext c) s = .next (s.answer ⟨.notConfigured, []⟩) := by
  simp only [exec_of_ready _ _ (ready_dsnext c s h hc hs), execOpen, if_pos hw, raise_eq]

/-- Settles O37: the tests of R188, then `exec_dsnext` with the refill said case by case. -/
theorem dsnextEmitsTheNextWindow : Obligations.DsnextEmitsTheNextWindow := by
  refine fun c s hh hc => ⟨rfl, fun hs => ?_, fun hs hw => ?_, fun hs hw hinv => ?_⟩
  · exact exec_of_unseeded _ _ hh (decide_eq_true hc) rfl hs
  · exact exec_dsnext_of_not_configured hh hc hs hw
  · intro k refilled rem sample value
    have hrem : (refill k s.gen).1.rem.val - k.w.bytes = rem := by rw [refill_rem]
    have hsample : (refill k s.gen).1.sample = sample := refill_sample k s.gen
    have hvalue : (takeWindow k s.gen).1 = value := by rw [takeWindow_value, hrem, hsample, window_eq_ofNat]
    have hle : k.w.bytes ≤ if refilled then 8 else k.rem.val := refill_rem k s.gen ▸ hinv.bytes_le_refill hw s.gen
    refine ⟨_, exec_dsnext ⟨hh, hc, hs, hw⟩, ?_, by simp, ?_⟩
    · rw [← hvalue, ← refill_gen]; rfl
    · rw [afterWindow_channel hc, takeWindow_w, takeWindow_rem, takeWindow_sample]
      refine ⟨rfl, hrem, hsample, fun d hd => afterWindow_channel_other s hd, hle, ?_⟩
      have hpos : 0 < k.w.bytes := Width.bytes_pos hw
      have hrem9 : k.rem.val < 9 := k.rem.isLt
      simp only [rem]
      split <;> omega

/-! ## DSNEXTs in a row -/

theorem Serves.afterWindow {c : BitVec 8} {s : State} (h : Serves c s) : Serves c (s.afterWindow c) := by
  refine ⟨h.halted, ?_, ?_, ?_⟩
  · rw [afterWindow_ch_length]; exact h.exists_channel
  · rw [afterWindow_gen, refill_seeded]; exact h.seeded
  · rw [afterWindow_channel h.exists_channel, takeWindow_w]; exact h.configured

theorem Serves.iterate {c : BitVec 8} {s : State} (h : Serves c s) (n : Nat) :
    Serves c ((State.afterWindow c)^[n] s) := by
  induction n with
  | zero => exact h
  | succ n ih => rw [Function.iterate_succ_apply']; exact ih.afterWindow

theorem Serves.iterate_w {c : BitVec 8} {s : State} (h : Serves c s) (n : Nat) :
    (((State.afterWindow c)^[n] s).channel c.toNat).w = (s.channel c.toNat).w := by
  induction n with
  | zero => rfl
  | succ n ih => rw [Function.iterate_succ_apply', afterWindow_channel (h.iterate n).exists_channel, takeWindow_w, ih]

theorem execTimes_dsnext {c : BitVec 8} {s : State} (h : Serves c s) (n : Nat) :
    execTimes (.dsnext c) n s = .next ((State.afterWindow c)^[n] s) := by
  induction n generalizing s with
  | zero => rfl
  | succ n ih => simp only [execTimes, exec_dsnext h, ih h.afterWindow, Function.iterate_succ_apply]

theorem Serves.getLast?_responses {c : BitVec 8} {s : State} (h : Serves c s) (n : Nat) :
    let k := ((State.afterWindow c)^[n + 1] s).channel c.toNat
    ((State.afterWindow c)^[n + 1] s).responses.getLast? = some ⟨.ok, [window k.w k.rem.val k.sample]⟩ := by
  intro k
  have hk : k = (takeWindow (((State.afterWindow c)^[n] s).channel c.toNat) ((State.afterWindow c)^[n] s).gen).2.1 := by
    simp only [k, Function.iterate_succ_apply', afterWindow_channel (h.iterate n).exists_channel]
  rw [hk, takeWindow_w, ← takeWindow_value_eq_window, Function.iterate_succ_apply']
  simp [State.afterWindow]

/-- The first `8 / W` windows from an empty channel are cut from one draw (R133). -/
theorem Serves.iterate_of_empty {c : BitVec 8} {s : State} (h : Serves c s) (hempty : (s.channel c.toNat).rem.val = 0)
    (j : Nat) (hj : (j + 1) * (s.channel c.toNat).w.bytes ≤ 8) :
    ((State.afterWindow c)^[j + 1] s).gen = (draw s.gen).2 ∧
    (((State.afterWindow c)^[j + 1] s).channel c.toNat).rem.val = 8 - (j + 1) * (s.channel c.toNat).w.bytes ∧
    (((State.afterWindow c)^[j + 1] s).channel c.toNat).sample = (draw s.gen).1 := by
  induction j with
  | zero =>
    simp only [Function.iterate_succ_apply', Function.iterate_zero_apply, afterWindow_gen,
      afterWindow_channel h.exists_channel, takeWindow_rem, takeWindow_sample, refill_gen, refill_rem, refill_sample,
      if_pos hempty, Nat.zero_add, Nat.one_mul, and_self]
  | succ j ih =>
    have hpos : 0 < (s.channel c.toNat).w.bytes := Width.bytes_pos h.configured
    rw [Nat.succ_mul] at hj
    obtain ⟨hgen, hrem, hsample⟩ := ih (by omega)
    have hleft : (((State.afterWindow c)^[j + 1] s).channel c.toNat).rem.val ≠ 0 := by rw [hrem]; omega
    rw [Function.iterate_succ_apply']
    simp only [afterWindow_gen, afterWindow_channel (h.iterate (j + 1)).exists_channel, takeWindow_rem,
      takeWindow_sample, refill_gen, refill_rem, refill_sample, if_neg hleft, h.iterate_w]
    exact ⟨hgen, by rw [hrem, Nat.succ_mul (j + 1), Nat.sub_sub], hsample⟩

/-! ## The windows of one sample -/

/-- The window at a shift by `8 - (j + 1) * W` bytes is window `j` from the top (R133). -/
theorem window_eq_windowNumber (w : Width) (sample : Word) (j : Nat) :
    window w (8 - (j + 1) * w.bytes) sample = BitVec.ofNat 64 (windowNumber w sample j) := by
  have hshift : 8 * (8 - (j + 1) * w.bytes) = 64 - 8 * w.bytes * (j + 1) := by
    rw [Nat.mul_sub, Nat.mul_comm (j + 1), Nat.mul_assoc]
  rw [window_eq_ofNat, hshift, windowNumber]

/-- The first `n` windows put together are the sample with the bytes below them cleared. -/
theorem sum_windowNumber (w : Width) (sample : Word) (n : Nat) (hn : w.bytes * n ≤ 8) :
    ((List.range n).map fun j => windowNumber w sample j * 2 ^ (64 - 8 * w.bytes * (j + 1))).sum =
      sample.toNat / 2 ^ (64 - 8 * w.bytes * n) * 2 ^ (64 - 8 * w.bytes * n) := by
  induction n with
  | zero => simp [Nat.div_eq_of_lt sample.isLt]
  | succ n ih =>
    rw [Nat.mul_succ] at hn
    have hsplit : 64 - 8 * w.bytes * n = 64 - 8 * w.bytes * (n + 1) + 8 * w.bytes := by
      rw [Nat.mul_succ, Nat.mul_assoc]; omega
    rw [List.range_succ, List.map_append, List.sum_append, ih (by omega), List.map_singleton, List.sum_singleton,
      windowNumber, hsplit]
    generalize 64 - 8 * w.bytes * (n + 1) = e
    rw [Nat.pow_add, ← Nat.div_div_eq_div_mul, Nat.mul_comm (2 ^ e), ← Nat.mul_assoc, ← Nat.add_mul, Nat.div_add_mod']

/-- Settles O38: `Serves.iterate_of_empty` for the channel, `sum_windowNumber` at the last window for the sample. -/
theorem windowsOfASampleFromTheTop : Obligations.WindowsOfASampleFromTheTop := by
  refine ⟨fun c s j hh hc hs hw hempty hj => ?_, fun w sample hw => ?_⟩
  · have h : Serves c s := ⟨hh, hc, hs, hw⟩
    have hj8 := (Nat.le_div_iff_mul_le (Width.bytes_pos hw)).1 hj
    obtain ⟨hgen, hrem, hsample⟩ := h.iterate_of_empty hempty j hj8
    refine ⟨_, execTimes_dsnext h (j + 1), hgen, hrem, hsample, ?_⟩
    rw [h.getLast?_responses, h.iterate_w, hrem, hsample, window_eq_windowNumber]
  · have hall : w.bytes * (8 / w.bytes) = 8 := Width.bytes_mul_div hw
    rw [sum_windowNumber w sample _ hall.le, Nat.mul_assoc, hall, Nat.sub_self, Nat.pow_zero, Nat.div_one, Nat.mul_one]

/-! ## The channel that is as wide as the sample -/

theorem window_eight (sample : Word) : window .eight 0 sample = sample := by
  simp [window, Width.bytes]

theorem Channel.Inv.rem_eq_zero_of_eight {k : Channel} (h : k.Inv) (hw : k.w = .eight) : k.rem.val = 0 := by
  simp only [Channel.Inv, hw, Width.bytes, reduceCtorEq, if_false] at h
  omega

/-- On an empty channel of width 8 a window is a draw. -/
theorem takeWindow_of_eight {k : Channel} (hw : k.w = .eight) (hempty : k.rem.val = 0) (g : Gen) :
    (takeWindow k g).1 = (draw g).1 ∧ (takeWindow k g).2.2 = (draw g).2 := by
  rw [takeWindow_value, takeWindow_gen, refill_rem, refill_sample, refill_gen, if_pos hempty, if_pos hempty,
    if_pos hempty, hw]
  exact ⟨window_eight _, rfl⟩

/-- Settles O40: a channel of width 8 is always empty (R31), so its window is the draw `NEXT64` makes. -/
theorem eightByteChannelIsNext64 : Obligations.EightByteChannelIsNext64 := by
  intro c s hh hc hs hw hinv
  have hserves : Serves c s := ⟨hh, hc, hs, by rw [hw]; exact Width.noConfusion⟩
  obtain ⟨hvalue, hgen⟩ := takeWindow_of_eight hw (hinv.rem_eq_zero_of_eight hw) s.gen
  have hnext64 := exec_next64 s hh
  rw [if_pos hs] at hnext64
  refine ⟨_, _, ⟨.ok, [(draw s.gen).1]⟩, exec_dsnext hserves, hnext64, hgen, ?_, rfl⟩
  rw [← hvalue]; rfl

end Sys2Proof.Machine
end

section
/-! PROOFS. The ranges: the rejection test as a threshold on the draw, its value at the edges, and what `RANGE` and
`RANGE2` answer, where `RANGE max` is `RANGE2 0, max`. -/

namespace Sys2Proof.Machine

/-! ## The rejection threshold -/

/-- The rejection test on the naturals (R150). -/
theorem rejects_iff_nat (max raw : Word) :
    rejects max raw = true ↔ raw.toNat - raw.toNat % max.toNat > (2 ^ 64 - 1) - max.toNat := by
  have hle := Nat.mod_le raw.toNat max.toNat
  have hmax := max.isLt
  rw [rejects_iff_int, RejectsInt, ← Int.natCast_mod]
  omega

/-- A draw is rejected exactly when it is in no whole block of `max` words (R151). -/
theorem rejects_iff_threshold_le {max : Word} (h : max ≠ 0) (raw : Word) :
    rejects max raw = true ↔ rangeThreshold max.toNat ≤ raw.toNat := by
  have hpos := BitVec.toNat_pos_of_ne_zero h
  have hmax := max.isLt
  have hblock : raw.toNat - raw.toNat % max.toNat = max.toNat * (raw.toNat / max.toNat) := by
    have := Nat.div_add_mod raw.toNat max.toNat
    omega
  calc rejects max raw = true
      ↔ 2 ^ 64 - 1 < (raw.toNat / max.toNat + 1) * max.toNat := by
        rw [rejects_iff_nat, hblock, Nat.succ_mul, Nat.mul_comm]; omega
    _ ↔ (2 ^ 64 - 1) / max.toNat ≤ raw.toNat / max.toNat := by
        rw [← Nat.div_lt_iff_lt_mul hpos, Nat.lt_succ_iff]
    _ ↔ rangeThreshold max.toNat ≤ raw.toNat := Nat.le_div_iff_mul_le hpos

theorem accepts_iff_lt_threshold {max : Word} (h : max ≠ 0) (raw : Word) :
    rejects max raw = false ↔ raw.toNat < rangeThreshold max.toNat := by
  rw [← Bool.not_eq_true, rejects_iff_threshold_le h, Nat.not_le]

/-- The words from the threshold up: those of the last, partial block, and `U64_MAX` (R157). -/
theorem rejected_count (m : Nat) : 2 ^ 64 - rangeThreshold m = (2 ^ 64 - 1) % m + 1 := by
  have := Nat.div_add_mod' (2 ^ 64 - 1) m
  unfold rangeThreshold
  omega

theorem mod_succ_eq {n m : Nat} (h : 0 < m) : n % m + 1 = if (n + 1) % m = 0 then m else (n + 1) % m := by
  have hlt := Nat.mod_lt n h
  rw [← Nat.mod_add_mod n m 1]
  rcases Nat.lt_or_eq_of_le (Nat.succ_le_of_lt hlt) with h' | h'
  · rw [Nat.mod_eq_of_lt h', if_neg (Nat.succ_ne_zero _)]
  · rw [← Nat.succ_eq_add_one, h', Nat.mod_self, if_pos rfl]

/-- In `b` whole blocks of `m` numbers each residue below `m` stands `b` times. -/
theorem card_residue_blocks {m r : Nat} (hr : r < m) (b : Nat) :
    ((Finset.range (b * m)).filter (· % m = r)).card = b := by
  have hm : 0 < m := by omega
  have h := Nat.count_modEq_card (r := m) (b * m) hm r
  rw [Nat.count_eq_card_filter_range] at h
  simpa [Nat.ModEq, Nat.mod_eq_of_lt hr, Nat.mul_div_cancel b hm] using h

/-- The accepted words with residue `r` are the numbers below the threshold with that residue. -/
theorem filter_accepted {max : Word} (h : max ≠ 0) (r : Nat) :
    ((Finset.range (2 ^ 64)).filter fun raw =>
      rejects max (BitVec.ofNat 64 raw) = false ∧ raw % max.toNat = r) =
    (Finset.range (rangeThreshold max.toNat)).filter (· % max.toNat = r) := by
  have hq : rangeThreshold max.toNat ≤ 2 ^ 64 - 1 := Nat.div_mul_le_self _ _
  ext raw
  simp only [Finset.mem_filter, Finset.mem_range, accepts_iff_lt_threshold h, BitVec.toNat_ofNat]
  constructor
  · rintro ⟨hlt, hacc, hmod⟩
    exact ⟨by rwa [Nat.mod_eq_of_lt hlt] at hacc, hmod⟩
  · rintro ⟨hacc, hmod⟩
    have hlt : raw < 2 ^ 64 := by omega
    exact ⟨hlt, by rwa [Nat.mod_eq_of_lt hlt], hmod⟩

/-- Settles O44: the threshold by `rejects_iff_threshold_le`, the counts by blocks of `max` words. -/
theorem rejectionThreshold : Obligations.RejectionThreshold := by
  intro max hmax q
  have hpos := BitVec.toNat_pos_of_ne_zero hmax
  refine ⟨rejects_iff_threshold_le hmax, ?_, fun r hr => ?_⟩
  · exact (rejected_count _).trans (mod_succ_eq hpos)
  · rw [filter_accepted hmax]
    simp only [q, rangeThreshold, card_residue_blocks hr, Nat.mul_div_cancel _ hpos]

/-- A bound above 2^63 leaves one whole block (R152). -/
theorem rangeThreshold_of_gt_half {m : Nat} (h : 2 ^ 63 < m) (hm : m < 2 ^ 64) : rangeThreshold m = m := by
  have hone : (2 ^ 64 - 1) / m = 1 := Nat.div_eq_of_lt_le (by omega) (by omega)
  rw [rangeThreshold, hone, Nat.one_mul]

theorem rejected_count_le (m : Nat) (h : 0 < m) : 2 ^ 64 - rangeThreshold m ≤ m := by
  rw [rejected_count]
  exact Nat.mod_lt _ h

/-- At most half of the words are rejected (R152). -/
theorem half_le_rangeThreshold {m : Nat} (h : 0 < m) (hm : m < 2 ^ 64) : 2 ^ 63 ≤ rangeThreshold m := by
  rcases Nat.lt_or_ge (2 ^ 63) m with hgt | hle
  · exact (rangeThreshold_of_gt_half hgt hm).symm ▸ hgt.le
  · have := rejected_count_le m h
    omega

/-- Settles O45: `half_le_rangeThreshold`, and the value of the threshold on each side of the half. -/
theorem lowDrawsAreAlwaysAccepted : Obligations.LowDrawsAreAlwaysAccepted := by
  intro max hmax
  have hpos := BitVec.toNat_pos_of_ne_zero hmax
  have hhalf := half_le_rangeThreshold hpos max.isLt
  have hcount := rejected_count_le max.toNat hpos
  refine ⟨fun raw hraw => ?_, hhalf, fun hgt => rangeThreshold_of_gt_half hgt max.isLt, by omega, fun h => ?_,
    fun h => ?_, fun h => by omega⟩
  · exact (accepts_iff_lt_threshold hmax raw).2 (lt_of_lt_of_le hraw hhalf)
  · rw [rejected_count, h]
    decide
  · rw [rangeThreshold_of_gt_half (h ▸ Nat.lt_succ_self _) max.isLt, h]
    decide

/-! ## The commands -/

/-- The state a range command leads to after `k` rejected draws and an accepted one (R150, R154). -/
def State.afterRange (base bound : Word) (k : Nat) (s : State) : State :=
  (s.withGen (genAfter (k + 1) s.gen)).answer ⟨.ok, [drawAt s.gen k % bound + base]⟩

/-- `RANGE max` is `RANGE2 0, max`: what is said of `RANGE2` is said of both. -/
theorem exec_range_eq_range2 (max : Word) (s : State) : exec (.range max) s = exec (.range2 0 max) s := by
  have h : (0 : Word) ≥ max ↔ max = 0 := BitVec.le_zero_iff
  simp only [exec, execRange, execRange2, h, sub_zero]
  rfl

theorem exec_range2_of_empty {lo hi : Word} {s : State} (h : Ready (.range2 lo hi) s) (hle : hi ≤ lo) :
    exec (.range2 lo hi) s = .next (s.answer ⟨.invalidArgument, []⟩) := by
  simp only [exec_of_ready _ _ h, execOpen, if_pos hle, ge_iff_le, raise_eq]

theorem exec_range2_of_lt {lo hi : Word} {s : State} (h : Ready (.range2 lo hi) s) (hlt : lo < hi) :
    exec (.range2 lo hi) s = respondInRange lo (hi - lo) s := by
  simp only [exec_of_ready _ _ h, execOpen, ge_iff_le, if_neg (BitVec.not_le.2 hlt)]

theorem exec_range2_of_accepted {lo hi : Word} {s : State} {k : Nat} (h : Ready (.range2 lo hi) s) (hlt : lo < hi)
    (ha : AcceptedAfter (hi - lo) s.gen k) :
    exec (.range2 lo hi) s = .next (s.afterRange lo (hi - lo) k) := by
  rw [exec_range2_of_lt h hlt, respondInRange_of_accepted _ _ _ _ (accepted_lt_drawLimit _ _ _ ha) ha,
    State.afterRange]

/-- A `RANGE2` that completes on a range that is not empty has accepted a draw (R153). -/
theorem exists_accepted_of_exec_range2 {lo hi : Word} {s t : State} (h : Ready (.range2 lo hi) s) (hlt : lo < hi)
    (ht : exec (.range2 lo hi) s = .next t) :
    ∃ k, AcceptedAfter (hi - lo) s.gen k ∧ t = s.afterRange lo (hi - lo) k := by
  rw [exec_range2_of_lt h hlt] at ht
  rcases respondInRange_cases lo (hi - lo) s with ⟨e, -⟩ | ⟨k, -, ha, e⟩ <;> rw [e] at ht <;> cases ht
  exact ⟨k, ha, rfl⟩

/-- An OK answer of `RANGE2` tells that every test of R188 has passed. -/
theorem ready_of_exec_range2_ok {lo hi : Word} {s t : State} {data : List Word}
    (ht : exec (.range2 lo hi) s = .next t) (hok : t.responses = s.responses ++ [⟨.ok, data⟩]) :
    Ready (.range2 lo hi) s ∧ lo < hi := by
  rcases exec_cases (.range2 lo hi) s with ⟨-, e⟩ | ⟨-, -, e⟩ | ⟨-, -, -, -, e⟩ | ⟨h, -⟩
  case inr.inr.inr =>
    refine ⟨h, BitVec.not_le.1 fun hle => ?_⟩
    rw [exec_range2_of_empty h hle] at ht
    cases ht
    simp at hok
  all_goals
    rw [e] at ht
    cases ht
    simp at hok

/-- What an OK answer of `RANGE2` is. -/
theorem exec_range2_ok {lo hi x : Word} {s t : State} (ht : exec (.range2 lo hi) s = .next t)
    (hok : t.responses = s.responses ++ [⟨.ok, [x]⟩]) :
    Ready (.range2 lo hi) s ∧ lo < hi ∧ ∃ k, AcceptedAfter (hi - lo) s.gen k ∧
      t = s.afterRange lo (hi - lo) k ∧ x = drawAt s.gen k % (hi - lo) + lo := by
  obtain ⟨h, hlt⟩ := ready_of_exec_range2_ok ht hok
  obtain ⟨k, ha, rfl⟩ := exists_accepted_of_exec_range2 h hlt ht
  simp only [State.afterRange, State.answer_responses, State.withGen_responses, List.append_cancel_left_eq,
    List.cons.injEq, Response.mk.injEq, and_true, true_and] at hok
  exact ⟨h, hlt, k, ha, rfl, hok.symm⟩

theorem toNat_sub_of_lt {lo hi : Word} (h : lo.toNat < hi.toNat) : (hi - lo).toNat = hi.toNat - lo.toNat :=
  BitVec.toNat_sub_of_le (BitVec.le_def.2 h.le)

/-- The bound of a range plus its base is at most its end, so the result moved up does not carry (R156). -/
theorem toNat_mod_add {lo hi : Word} (h : lo.toNat < hi.toNat) (raw : Word) :
    (raw % (hi - lo) + lo).toNat = raw.toNat % (hi.toNat - lo.toNat) + lo.toNat := by
  have hmod := Nat.mod_lt raw.toNat (Nat.sub_pos_of_lt h)
  have hhi := hi.isLt
  rw [BitVec.toNat_add, BitVec.toNat_umod, toNat_sub_of_lt h, Nat.mod_eq_of_lt (by omega)]

theorem mod_add_mem_range {lo hi : Word} (h : lo.toNat < hi.toNat) (raw : Word) :
    lo.toNat ≤ (raw % (hi - lo) + lo).toNat ∧ (raw % (hi - lo) + lo).toNat < hi.toNat := by
  have hmod := Nat.mod_lt raw.toNat (Nat.sub_pos_of_lt h)
  rw [toNat_mod_add h]
  omega

/-- The first draw of seed 5489 (R108). -/
theorem drawAt_seed_5489_zero : drawAt (seedGen 5489) 0 = 0xC96D191CF6F6AEA6 := by
  rw [drawAt, genAfter, draw_of_full _ rfl, seed_5489_values.2]
  decide

/-- Settles O42: `RANGE2` from 0, with the rejection test on the naturals. -/
theorem rangeReturnsTheFirstAcceptedDraw : Obligations.RangeReturnsTheFirstAcceptedDraw := by
  refine ⟨fun _ => rfl, fun max s hh hr => ⟨fun hs => ?_, fun hs h0 => ?_, fun hs h0 k hrej hacc => ?_⟩,
    drawAt_seed_5489_zero, by decide, by decide⟩
  · exact exec_of_unseeded _ _ hh hr rfl hs
  · rw [exec_range_eq_range2, exec_range2_of_empty (ready_range2 0 max s hh hr hs) (BitVec.le_zero_iff.2 h0)]
    rfl
  · have ha : AcceptedAfter max s.gen k :=
      ⟨fun j hj => (rejects_iff_nat _ _).2 (hrej j hj),
        by rwa [← Bool.not_eq_true, rejects_iff_nat, gt_iff_lt, Nat.not_lt]⟩
    rw [exec_range_eq_range2, exec_range2_of_accepted (ready_range2 0 max s hh hr hs)
      (BitVec.toNat_pos_of_ne_zero h0) (by rwa [sub_zero])]
    simp only [State.afterRange, sub_zero, add_zero, ← BitVec.toNat_umod, BitVec.ofNat_toNat,
      BitVec.setWidth_eq]
    rfl

/-- Settles O46: the loop by `exec_range2_ok` and `acceptedAfter_iff_int`, the single values by `toNat_mod_add`. -/
theorem rangeArithmeticDoesNotWrap : Obligations.RangeArithmeticDoesNotWrap := by
  refine ⟨fun max raw _ => rejects_iff_int max raw, fun max x s t ht hok => ?_, fun lo hi x s t ht hok => ?_,
    fun max raw h0 => ?_⟩
  · rw [exec_range_eq_range2] at ht
    obtain ⟨-, hlt, k, ha, rfl, rfl⟩ := exec_range2_ok ht hok
    rw [sub_zero] at ha
    refine ⟨by rintro rfl; exact absurd hlt (by decide), k, (acceptedAfter_iff_int _ _ _).1 ha, rfl, ?_⟩
    rw [sub_zero, add_zero, BitVec.toNat_umod, Int.natCast_mod]
  · obtain ⟨-, hlt, k, ha, rfl, rfl⟩ := exec_range2_ok ht hok
    rw [acceptedAfter_iff_int, toNat_sub_of_lt hlt, Nat.cast_sub hlt.le] at ha
    refine ⟨hlt, k, ha, rfl, ?_, mod_add_mem_range hlt _⟩
    rw [toNat_mod_add hlt, Nat.cast_add, Int.natCast_mod, Nat.cast_sub hlt.le]
  · have hpos := BitVec.toNat_pos_of_ne_zero h0
    have hmax := max.isLt
    have hmod := Nat.mod_lt raw.toNat hpos
    have hle := Nat.mod_le raw.toNat max.toNat
    have hsub : (u64Max - max).toNat = (2 ^ 64 - 1) - max.toNat := BitVec.toNat_sub_of_le (Nat.le_of_lt_succ hmax)
    refine ⟨BitVec.toNat_umod, hmod, hle, BitVec.toNat_sub_of_le hle, hsub, by omega, fun lo hi hlt h => ?_⟩
    subst h
    refine ⟨toNat_sub_of_lt hlt, ?_, mod_add_mem_range hlt raw⟩
    rw [toNat_mod_add hlt, BitVec.toNat_umod, toNat_sub_of_lt hlt]

/-- Settles O47: `RANGE (hi - lo)` and `RANGE2 lo, hi` accept the same draw. -/
theorem range2IsRangeMovedUp : Obligations.Range2IsRangeMovedUp := by
  refine ⟨fun _ _ => rfl, fun lo hi s hh hr =>
    ⟨fun hs => ?_, fun hs hle => ?_, fun hs hlt => ⟨fun t ht => ?_, fun k ha => ?_⟩⟩,
    ⟨fun j hj => absurd hj (Nat.not_lt_zero j), ?_⟩, ?_⟩
  · exact exec_of_unseeded _ _ hh hr rfl hs
  · exact exec_range2_of_empty (ready_range2 lo hi s hh hr hs) hle
  · rw [exec_range_eq_range2] at ht
    have hpos : 0 < hi - lo := by bv_omega
    obtain ⟨k, ha, rfl⟩ := exists_accepted_of_exec_range2 (ready_range2 _ _ s hh hr hs) hpos ht
    rw [sub_zero] at ha
    refine ⟨drawAt s.gen k % (hi - lo), ?_, ?_, mod_add_mem_range hlt _⟩
    · simp [State.afterRange]
    · rw [exec_range2_of_accepted (ready_range2 lo hi s hh hr hs) hlt ha]
      rfl
  · exact exec_range2_of_accepted (ready_range2 lo hi s hh hr hs) hlt ha
  · rw [drawAt_seed_5489_zero]; decide
  · rw [drawAt_seed_5489_zero]; decide

/-! ## The draws of a range are NEXT64s -/

/-- `k + 1` `NEXT64`s make `k + 1` draws and the last of them answers the last draw. -/
theorem execTimes_next64 {s : State} (h : Ready .next64 s) (k : Nat) :
    ∃ u, execTimes .next64 (k + 1) s = .next u ∧ u.gen = genAfter (k + 1) s.gen ∧
      u.responses.getLast? = some ⟨.ok, [drawAt s.gen k]⟩ := by
  induction k generalizing s with
  | zero =>
    refine ⟨(s.withGen (draw s.gen).2).answer ⟨.ok, [(draw s.gen).1]⟩, ?_, rfl, List.getLast?_concat⟩
    simp only [execTimes, exec_of_ready _ _ h, execOpen, respond_eq]
  | succ k ih =>
    have hnext : Ready .next64 ((s.withGen (draw s.gen).2).answer ⟨.ok, [(draw s.gen).1]⟩) := h
    obtain ⟨u, hu, hgen, hlast⟩ := ih hnext
    refine ⟨u, ?_, ?_, ?_⟩
    · rw [execTimes, exec_of_ready _ _ h]; exact hu
    · rw [hgen, genAfter_succ' (k + 1)]; rfl
    · rw [hlast, drawAt_succ]; rfl

/-- Settles O48: a range that rejected `k` draws made `k + 1`, which as many `NEXT64`s make. -/
theorem rangeDrawsAreNext64s : Obligations.RangeDrawsAreNext64s := by
  intro i s t bound base x hcmd ht hok
  obtain ⟨hi, ht, rfl⟩ : ∃ hi, exec (.range2 base hi) s = .next t ∧ bound = hi - base := by
    rcases hcmd with ⟨rfl, rfl⟩ | ⟨hi, rfl, rfl⟩
    · exact ⟨bound, exec_range_eq_range2 bound s ▸ ht, (sub_zero bound).symm⟩
    · exact ⟨hi, ht, rfl⟩
  obtain ⟨⟨hh, -, hs⟩, -, k, -, rfl, rfl⟩ := exec_range2_ok ht hok
  obtain ⟨u, hu, hgen, hlast⟩ := execTimes_next64 (ready_next64 s hh (hs rfl)) k
  exact ⟨k + 1, u, drawAt s.gen k, Nat.le_add_left 1 k, hu, hgen, hlast, rfl, rfl⟩

/-! ## The edges -/

theorem rejects_iff_of_threshold {max : Word} {q : Nat} (h : max ≠ 0) (hq : rangeThreshold max.toNat = q)
    (raw : Word) : rejects max raw = true ↔ q ≤ raw.toNat :=
  hq ▸ rejects_iff_threshold_le h raw

/-- A range of one value answers that value (R155). -/
theorem exec_range2_of_one_value {lo hi : Word} {s t : State} (h : Ready (.range2 lo hi) s)
    (hone : hi.toNat = lo.toNat + 1) (ht : exec (.range2 lo hi) s = .next t) :
    t.responses = s.responses ++ [⟨.ok, [lo]⟩] := by
  have hlt : lo.toNat < hi.toNat := by omega
  obtain ⟨k, -, rfl⟩ := exists_accepted_of_exec_range2 h hlt ht
  have hx : drawAt s.gen k % (hi - lo) + lo = lo := by
    have := mod_add_mem_range hlt (drawAt s.gen k)
    exact BitVec.eq_of_toNat_eq (by omega)
  rw [State.afterRange, hx, State.answer_responses, State.withGen_responses]

theorem umod_two_eq_lowBit (raw : Word) : raw % 2 = if raw.getLsbD 0 then 1 else 0 := by
  have hbit : raw.getLsbD 0 = decide (raw.toNat % 2 = 1) := Nat.testBit_zero _
  refine BitVec.eq_of_toNat_eq ?_
  rw [hbit, BitVec.toNat_umod, show (2 : Word).toNat = 2 from rfl]
  rcases Nat.mod_two_eq_zero_or_one raw.toNat with h | h <;> rw [h] <;> rfl

theorem topBit_iff (raw : Word) : raw.getLsbD 63 = true ↔ 2 ^ 63 ≤ raw.toNat := by
  rw [show raw.getLsbD 63 = decide (2 ^ 63 ≤ raw.toNat) from BitVec.msb_eq_decide raw, decide_eq_true_eq]

/-- Settles O49: the ranges by `exec_range2_of_empty` and `exec_range2_of_one_value`, the bounds by their
thresholds. -/
theorem rangesAtTheEdges : Obligations.RangesAtTheEdges := by
  refine ⟨fun lo hi s hh hr hs hmem => ?_, fun lo hi s t hh hr hs hone ht => ?_, fun s t hh hr hs ht => ?_,
    fun raw => ?_⟩
  · have hle : hi ≤ lo := by
      simp only [List.mem_cons, Prod.mk.injEq, List.not_mem_nil, or_false] at hmem
      rcases hmem with ⟨rfl, rfl⟩ | ⟨rfl, rfl⟩ | ⟨rfl, rfl⟩ | ⟨rfl, rfl⟩ <;> decide
    exact exec_range2_of_empty (ready_range2 lo hi s hh hr hs) hle
  · exact exec_range2_of_one_value (ready_range2 lo hi s hh hr hs) hone ht
  · rw [exec_range_eq_range2] at ht
    exact exec_range2_of_one_value (ready_range2 0 1 s hh hr hs) rfl ht
  · refine ⟨?_, ?_, fun hne => ?_, ?_, fun h => ?_, ?_, ?_, ?_⟩
    · rw [rejects_iff_of_threshold (q := 2 ^ 64 - 1) (by decide) (by decide)]
      bv_omega
    · rw [rejects_iff_of_threshold (q := 2 ^ 64 - 1) (by decide) (by decide)]
      bv_omega
    · exact BitVec.umod_eq_of_lt (by bv_omega)
    · rw [rejects_iff_of_threshold (q := 2 ^ 63) (by decide) (by decide), topBit_iff]
    · have hlow := (topBit_iff raw).not.1 (Bool.not_eq_true _ ▸ h)
      exact BitVec.umod_eq_of_lt (Nat.not_le.1 hlow)
    · rw [← Bool.not_eq_true, rejects_iff_of_threshold (q := 2 ^ 63 + 1) (by decide) (by decide), Nat.not_le,
        Nat.lt_succ_iff]
    · rw [rejects_iff_of_threshold (q := 2 ^ 64 - 2) (by decide) (by decide)]
      bv_omega
    · exact umod_two_eq_lowBit raw

end Sys2Proof.Machine
end

section
/-! PROOFS. The fill: what `FILL` does on a block that lets it run, the windows of a row of draws by number, and the
`DSNEXT`s that cut the same windows. -/

namespace Sys2Proof.Machine

/-! ## FILL -/

/-- A width is legal for the field that holds its number of bytes. -/
theorem widthOfField_of_bytes {wb : BitVec 4} {w : Width} (hw : w ≠ .notConfigured) (h : w.bytes = wb.toNat) :
    widthOfField wb = some w := by
  rw [← widthOfField_field w hw, Width.field, h, BitVec.ofNat_toNat, BitVec.setWidth_eq]

theorem exec_fill_of_legal {wb : BitVec 4} {n : Word} {s : State} {w : Width} (h : Ready (.fill wb n) s)
    (hw : widthOfField wb = some w) :
    exec (.fill wb n) s = .next ((s.withGen (takeWindows n.toNat (Channel.configured w 0) s.gen).2).answer
      ⟨.ok, (takeWindows n.toNat (Channel.configured w 0) s.gen).1⟩) := by
  simp only [exec_of_ready _ _ h, execOpen, hw, respond_eq]

/-- The contract check of `FILL` comes before its loop, so `n` has no part in it (R171). -/
theorem exec_fill_of_illegal {wb : BitVec 4} {n : Word} {s : State} (h : Ready (.fill wb n) s)
    (hbad : wb.toNat = 0 ∨ 8 % wb.toNat ≠ 0) :
    exec (.fill wb n) s = .next (s.withHalted.answer ⟨.contractViolation, []⟩) := by
  simp only [exec_of_ready _ _ h, execOpen, (widthOfField_none_iff wb).2 hbad, raiseContractViolation_eq]

/-- Settles O19: `exec_fill_of_illegal`, and a halted block answers `HALTED` to every command. -/
theorem fillContractViolationHalts : Obligations.FillContractViolationHalts := fun s w n hh hf hs hbad =>
  ⟨_, exec_fill_of_illegal (ready_fill w n s hh hf hs) hbad, rfl, fun j => exec_of_halted j _ rfl⟩

/-- Settles O52: no window is taken, and the width is checked before. -/
theorem fillOfNothingDrawsNothing : Obligations.FillOfNothingDrawsNothing := by
  refine fun wb s hh hf hs => ⟨fun h0 h8 => ?_, fun hbad => ?_⟩
  · obtain ⟨w, hw⟩ := exists_widthOfField h0 h8
    exact exec_fill_of_legal (ready_fill wb 0 s hh hf hs) hw
  · exact exec_fill_of_illegal (ready_fill wb 0 s hh hf hs) hbad

/-! ## The windows of a row of draws -/

/-- Window `i` of the draws from `g` on: with `m = 8 / W` windows to a sample, window `i mod m` of draw
`floor(i / m) + 1` (R170). -/
def fillElement (w : Width) (g : Gen) (i : Nat) : Word :=
  BitVec.ofNat 64 (windowNumber w (drawAt g (i / (8 / w.bytes))) (i % (8 / w.bytes)))

/-- Where the registers `k` and GEN `g'` stand once `i` windows of width `w` have been cut, when the first of them
found no byte left and GEN at `g`. -/
structure Sliced (w : Width) (g : Gen) (i : Nat) (k : Channel) (g' : Gen) : Prop where
  width : k.w = w
  rem : k.rem.val = (8 - i % (8 / w.bytes) * w.bytes) % 8
  sample : i % (8 / w.bytes) ≠ 0 → k.sample = drawAt g (i / (8 / w.bytes))
  gen : g' = genAfter ((i + 8 / w.bytes - 1) / (8 / w.bytes)) g

theorem Width.windows_pos {w : Width} (h : w ≠ .notConfigured) : 0 < 8 / w.bytes :=
  Nat.div_pos w.bytes_le_eight (Width.bytes_pos h)

theorem sliced_zero {k : Channel} (hw : k.w ≠ .notConfigured) (hempty : k.rem.val = 0) (g : Gen) :
    Sliced k.w g 0 k g := by
  have hm := Width.windows_pos hw
  refine ⟨rfl, ?_, fun h => absurd (Nat.zero_mod _) h, ?_⟩
  · rw [hempty, Nat.zero_mod, Nat.zero_mul]
  · rw [Nat.div_eq_of_lt (by omega)]; rfl

/-- The bytes below window `i` of a sample are the `rem` of R134 after `i + 1` windows. -/
theorem rem_after_window {w : Width} (hw : w ≠ .notConfigured) (i : Nat) :
    8 - (i % (8 / w.bytes) + 1) * w.bytes = (8 - (i + 1) % (8 / w.bytes) * w.bytes) % 8 := by
  cases w <;> simp only [Width.bytes, ne_eq, not_true_eq_false] at hw ⊢ <;> omega

/-- `ceil(i / m)`: one more than the quotient where the division leaves a rest. -/
theorem ceil_div_eq {m : Nat} (hm : 0 < m) (i : Nat) :
    (i + m - 1) / m = if i % m = 0 then i / m else i / m + 1 := by
  have hlt := Nat.mod_lt i hm
  have hsplit : i + m - 1 = m * (i / m) + (i % m + m - 1) := by
    rw [Nat.add_sub_assoc hm, Nat.add_sub_assoc hm, ← Nat.add_assoc, Nat.div_add_mod]
  have hrest : (i % m + m - 1) / m = if i % m = 0 then 0 else 1 := by
    split
    case isTrue h => exact Nat.div_eq_of_lt (by omega)
    case isFalse h => exact Nat.div_eq_of_lt_le (by omega) (by omega)
  rw [hsplit, Nat.mul_add_div hm, hrest]
  split <;> rfl

section
variable {w : Width} {g g' : Gen} {i : Nat} {k : Channel}

/-- Both cases of the refill leave the sample that window `i` is cut from, with its first `i mod m` windows gone. -/
theorem Sliced.refill (h : Sliced w g i k g') (hw : w ≠ .notConfigured) :
    (refill k g').1.rem.val = 8 - i % (8 / w.bytes) * w.bytes ∧
    (refill k g').1.sample = drawAt g (i / (8 / w.bytes)) ∧
    (refill k g').2 = genAfter (i / (8 / w.bytes) + 1) g := by
  have hbytes := Width.bytes_pos hw
  have hm := Width.windows_pos hw
  obtain ⟨-, hrem, hsample, rfl⟩ := h
  rw [refill_rem, refill_sample, refill_gen, ceil_div_eq hm]
  by_cases hi : i % (8 / w.bytes) = 0
  · have hempty : k.rem.val = 0 := by rw [hrem, hi, Nat.zero_mul]
    rw [if_pos hempty, if_pos hempty, if_pos hempty, if_pos hi, hi, Nat.zero_mul]
    exact ⟨rfl, rfl, rfl⟩
  · have hcut : 0 < i % (8 / w.bytes) * w.bytes := Nat.mul_pos (Nat.pos_of_ne_zero hi) hbytes
    have hrest : i % (8 / w.bytes) * w.bytes < 8 / w.bytes * w.bytes :=
      Nat.mul_lt_mul_of_pos_right (Nat.mod_lt i hm) hbytes
    rw [Nat.mul_comm (8 / w.bytes), Width.bytes_mul_div hw] at hrest
    have hleft : k.rem.val ≠ 0 := by omega
    rw [if_neg hleft, if_neg hleft, if_neg hleft, if_neg hi]
    exact ⟨by omega, hsample hi, rfl⟩

/-- A window cut is element `i`, and one more is cut after it. -/
theorem Sliced.takeWindow (h : Sliced w g i k g') (hw : w ≠ .notConfigured) :
    (takeWindow k g').1 = fillElement w g i ∧
    Sliced w g (i + 1) (takeWindow k g').2.1 (takeWindow k g').2.2 := by
  obtain ⟨hrem, hsample, hgen⟩ := h.refill hw
  have hleft : (Machine.takeWindow k g').2.1.rem.val = 8 - (i % (8 / w.bytes) + 1) * w.bytes := by
    rw [takeWindow_rem, hrem, h.width, Nat.succ_mul, Nat.sub_sub]
  refine ⟨?_, ?_, ?_, fun hi => ?_, ?_⟩
  · rw [takeWindow_value_eq_window, hleft, takeWindow_sample, hsample, h.width, window_eq_windowNumber, fillElement]
  · rw [takeWindow_w, h.width]
  · rw [hleft, rem_after_window hw]
  · rw [takeWindow_sample, hsample, Nat.succ_div_of_mod_ne_zero hi]
  · rw [takeWindow_gen, hgen, Nat.add_right_comm, Nat.add_sub_cancel, Nat.add_div_right _ (Width.windows_pos hw)]

theorem Sliced.takeWindows (h : Sliced w g i k g') (hw : w ≠ .notConfigured) (n : Nat) :
    (takeWindows n k g').1 = (List.range' i n).map (fillElement w g) ∧
    (takeWindows n k g').2 = genAfter ((i + n + 8 / w.bytes - 1) / (8 / w.bytes)) g := by
  induction n generalizing i k g' with
  | zero => exact ⟨rfl, h.gen⟩
  | succ n ih =>
    obtain ⟨hvalue, hnext⟩ := h.takeWindow hw
    obtain ⟨hrest, hgen⟩ := ih hnext
    rw [takeWindows_succ, List.range'_succ, List.map_cons]
    exact ⟨congrArg₂ _ hvalue hrest, by rw [hgen, Nat.add_right_comm i 1 n, Nat.add_assoc i n 1]⟩

end

/-- The loop of R170 by number: `n` elements and `ceil(n / m)` draws (R172). -/
theorem takeWindows_configured {w : Width} (hw : w ≠ .notConfigured) (x : Word) (n : Nat) (g : Gen) :
    takeWindows n (Channel.configured w x) g =
      ((List.range n).map (fillElement w g), genAfter ((n + 8 / w.bytes - 1) / (8 / w.bytes)) g) := by
  obtain ⟨hvalues, hgen⟩ := (sliced_zero (k := Channel.configured w x) hw rfl g).takeWindows hw n
  rw [Channel.configured_w, Nat.zero_add] at hgen
  rw [List.range_eq_range', ← hgen]
  exact Prod.ext hvalues rfl

set_option maxRecDepth 10000 in
/-- The second draw of seed 5489 (R170); the depth is that of `seed_5489_values`. -/
theorem drawAt_seed_5489_one : drawAt (seedGen 5489) 1 = 0x401F7AC78BC80F1C := by
  obtain ⟨-, hvalue, -⟩ := drawsAfterSeedByNumber 5489 2 (by decide)
  rw [show (1 : Nat) = 2 - 1 from rfl, hvalue]
  show temper (wordAt (twist (seedGen 5489).mt) 1) = _
  rw [wordAt_of_lt _ (by decide), twist_getElem_low _ 1 (by decide)]
  decide

/-- Settles O50: `exec_fill_of_legal` with the loop by number; the example cuts four windows from the first draw of
the seed and one from the second. -/
theorem fillElementsInOrder : Obligations.FillElementsInOrder := by
  refine ⟨fun _ _ => rfl, fun wb n s hh hf => ⟨fun hs => ?_, fun hs hbad => ?_, fun hs w hw hbytes => ?_⟩, ?_, ?_⟩
  · exact exec_of_unseeded _ _ hh hf rfl hs
  · exact exec_fill_of_illegal (ready_fill wb n s hh hf hs) hbad
  · rw [exec_fill_of_legal (ready_fill wb n s hh hf hs) (widthOfField_of_bytes hw hbytes),
      takeWindows_configured hw]
    rfl
  · rw [takeWindows_configured (by decide)]
    have hrange : List.range 5 = [0, 1, 2, 3, 4] := rfl
    simp only [hrange, List.map, fillElement, Width.bytes, Nat.reduceDiv, Nat.reduceMod, drawAt_seed_5489_zero,
      drawAt_seed_5489_one]
    decide
  · rw [takeWindows_configured (by decide)]
    exact Fin.ext (genAfter_of_full (seedGen 5489) rfl 2).2

/-! ## The same windows by DSNEXT -/

/-- `n` `DSNEXT`s from an empty channel: where they leave the channel and GEN, and what they answer. -/
theorem Serves.iterate_sliced {c : BitVec 8} {s : State} (h : Serves c s) (hempty : (s.channel c.toNat).rem.val = 0)
    (n : Nat) :
    Sliced (s.channel c.toNat).w s.gen n (((State.afterWindow c)^[n] s).channel c.toNat)
      ((State.afterWindow c)^[n] s).gen ∧
    ((State.afterWindow c)^[n] s).responses =
      s.responses ++ ((List.range n).map (fillElement (s.channel c.toNat).w s.gen)).map fun b => ⟨.ok, [b]⟩ := by
  induction n with
  | zero => exact ⟨sliced_zero h.configured hempty s.gen, (List.append_nil _).symm⟩
  | succ n ih =>
    obtain ⟨hslice, hresponses⟩ := ih
    obtain ⟨hvalue, hnext⟩ := hslice.takeWindow h.configured
    rw [Function.iterate_succ_apply', afterWindow_channel (h.iterate n).exists_channel]
    refine ⟨hnext, ?_⟩
    rw [State.afterWindow, State.answer_responses, hvalue]
    simp [hresponses, List.range_succ]

/-- A `DSCFG` with a legal width makes the channel serve windows, from no byte left. -/
theorem serves_configured {c : BitVec 8} {s : State} {w : Width} (hh : s.halted = false) (hc : c.toNat < s.ch.length)
    (hs : s.gen.seeded = true) (hw : w ≠ .notConfigured) (x : Word) :
    Serves c ((s.withChannel c.toNat (Channel.configured w x)).answer ⟨.ok, []⟩) := by
  refine ⟨hh, ?_, hs, ?_⟩
  · simpa using hc
  · simpa [State.withChannel_channel_same s c.toNat _ hc] using hw

/-- Settles O51: `takeWindows_configured` for the `FILL`, `Serves.iterate_sliced` for the `DSNEXT`s. -/
theorem fillIsManyDsnexts : Obligations.FillIsManyDsnexts := by
  refine fun c wb n s hh hf hs hc => ⟨fun h0 h8 => ?_, fun hbad =>
    ⟨exec_fill_of_illegal (ready_fill wb n s hh hf hs) hbad,
      exec_dscfg_of_illegal hh hc ((widthOfField_none_iff wb).2 hbad)⟩⟩
  obtain ⟨w, hfield⟩ := exists_widthOfField h0 h8
  obtain ⟨hbytes, hw⟩ := widthOfField_some wb w hfield
  have hserves := serves_configured hh hc hs hw (s.channel c.toNat).sample
  have hchannel := s.withChannel_channel_same c.toNat (Channel.configured w (s.channel c.toNat).sample) hc
  obtain ⟨hslice, hresponses⟩ := hserves.iterate_sliced (by simp [hchannel]) n.toNat
  have hfill := exec_fill_of_legal (ready_fill wb n s hh hf hs) hfield
  rw [takeWindows_configured hw] at hfill
  simp only [State.answer_channel, hchannel, Channel.configured_w] at hslice hresponses
  refine ⟨_, _, _, _, hfill, exec_dscfg_of_legal hh hc hfield, execTimes_dsnext hserves n.toNat, rfl, by simp,
    hresponses, hslice.gen.symm, rfl, ?_⟩
  rw [← hbytes]
  exact hslice.rem

end Sys2Proof.Machine
end

section
/-! PROOFS. The faults: the status R188's chain of tests gives each response, what a fault changes, and the responses
already given, which no command reads. -/

namespace Sys2Proof.Machine

/-! ## The halted block -/

/-- Only a contract violation halts a block (R182). -/
theorem exec_halts : ∀ i s t, exec i s = .next t → s.halted = false → t.halted = true →
    t.responses = s.responses ++ [⟨.contractViolation, []⟩] := by
  apply exec_next_ind
  case hViolation => intros; rfl
  all_goals
    intros
    simp_all

theorem exec_keeps_halted (i : Instr) {s t : State} (ht : exec i s = .next t) (hh : s.halted = true) :
    t.halted = true := by
  rw [exec_of_halted i s hh] at ht
  cases ht
  exact hh

theorem step_keeps_halted {s t : State} (ht : step s = .next t) (hh : s.halted = true)
    (hreset : ∀ rest, s.inputs ≠ .reset :: rest) : t.halted = true := by
  rcases step_cases s with ⟨-, e⟩ | ⟨rest, hin, -⟩ | ⟨_, rest, i, -, -, e⟩ | ⟨_, _, _, -, -, e⟩
  · rw [e] at ht; cases ht; exact hh
  · exact absurd hin (hreset rest)
  · rw [e] at ht; exact exec_keeps_halted i ht hh
  · rw [e] at ht; cases ht; exact hh

/-- Settles O16: `HALTED` comes before every other test, and only reset clears the flag. -/
theorem haltedBlockAnswersHalted : Obligations.HaltedBlockAnswersHalted :=
  ⟨fun _ _ _ hin hh => step_of_halted hin hh, exec_of_halted, fun i s t hh ht => exec_halts i s t ht hh,
    fun _ _ => step_keeps_halted⟩

/-! ## The order of the tests -/

/-- Tests 4 and 5 of R188: the status of a command for which tests 1 to 3 have passed. -/
def openStatus (i : Instr) (s : State) : Status :=
  match i with
  | .seed _ => .ok
  | .next64 => .ok
  | .range max => if max.toNat = 0 then .invalidArgument else .ok
  | .range2 lo hi => if hi.toNat ≤ lo.toNat then .invalidArgument else .ok
  | .dscfg _ w => if w.toNat = 0 ∨ 8 % w.toNat ≠ 0 then .invalidArgument else .ok
  | .dsnext c => if (s.channel c.toNat).w.bytes = 0 then .notConfigured else .ok
  | .fill w _ => if w.toNat = 0 ∨ 8 % w.toNat ≠ 0 then .contractViolation else .ok

/-- Tests 3 to 5 of R188: the status of a command the block has, when the block is not halted. -/
def legalStatus (i : Instr) (s : State) : Status :=
  if i.draws = true ∧ s.gen.seeded = false then .notSeeded else openStatus i s

theorem Width.bytes_eq_zero_iff (w : Width) : w.bytes = 0 ↔ w = .notConfigured := by
  cases w <;> decide

theorem respondInRange_status {base max : Word} {s t : State} (ht : respondInRange base max s = .next t) :
    ∃ data, t.responses = s.responses ++ [⟨.ok, data⟩] := by
  rcases respondInRange_cases base max s with ⟨e, -⟩ | ⟨_, -, -, e⟩ <;> rw [e] at ht <;> cases ht
  exact ⟨_, rfl⟩

theorem execOpen_status {i : Instr} {s t : State} (ht : execOpen i s = .next t) :
    ∃ data, t.responses = s.responses ++ [⟨openStatus i s, data⟩] := by
  cases i with
  | seed => cases ht; exact ⟨_, rfl⟩
  | next64 => cases ht; exact ⟨_, rfl⟩
  | range max =>
    have hzero : max.toNat = 0 ↔ max = 0 := BitVec.toNat_inj (y := 0)
    simp only [execOpen, openStatus, hzero] at ht ⊢
    split at ht
    case isTrue h => cases ht; rw [if_pos h]; exact ⟨_, rfl⟩
    case isFalse h => rw [if_neg h]; exact respondInRange_status ht
  | range2 lo hi =>
    simp only [execOpen, openStatus, ge_iff_le, BitVec.le_def] at ht ⊢
    split at ht
    case isTrue h => cases ht; rw [if_pos h]; exact ⟨_, rfl⟩
    case isFalse h => rw [if_neg h]; exact respondInRange_status ht
  | dscfg c w =>
    simp only [execOpen, openStatus, ← widthOfField_none_iff] at ht ⊢
    split at ht <;> cases ht <;> simp [*]
  | dsnext c =>
    simp only [execOpen, openStatus, Width.bytes_eq_zero_iff] at ht ⊢
    split at ht <;> cases ht <;> simp [*]
  | fill w n =>
    simp only [execOpen, openStatus, ← widthOfField_none_iff] at ht ⊢
    split at ht <;> cases ht <;> simp [*]

theorem exec_status {i : Instr} {s t : State} (hh : s.halted = false) (hw : i.wellFormed s.params = true)
    (ht : exec i s = .next t) : ∃ data, t.responses = s.responses ++ [⟨legalStatus i s, data⟩] := by
  unfold legalStatus
  split
  case isTrue hd =>
    rw [exec_of_unseeded i s hh hw hd.1 hd.2] at ht
    cases ht
    exact ⟨_, rfl⟩
  case isFalse hd =>
    rw [exec_of_ready i s ⟨hh, hw, fun h => by simpa [h] using hd⟩] at ht
    exact execOpen_status ht

/-- Settles O20: tests 1 and 2 are made by the step, the others by `exec_status`. -/
theorem firstFailingTestDecidesTheStatus : Obligations.FirstFailingTestDecidesTheStatus := by
  intro s t c rest hin ht
  cases hh : s.halted with
  | true =>
    rw [step_of_halted hin hh] at ht
    cases ht
    exact ⟨_, rfl⟩
  | false =>
    cases hd : decode s.params c with
    | error e =>
      rw [step_of_illegal hin hh ⟨e, hd⟩] at ht
      cases ht
      exact ⟨_, rfl⟩
    | ok i =>
      rw [step_of_decode_ok hin hd] at ht
      obtain ⟨data, h⟩ := exec_status (s := s.withInputs rest) hh ((decode_ok_iff _ _ _).1 hd).2 ht
      exact ⟨data, h⟩

/-! ## NOT_SEEDED and INVALID_ARGUMENT -/

theorem openStatus_ne_notSeeded (i : Instr) (s : State) : openStatus i s ≠ .notSeeded := by
  unfold openStatus
  repeat' split
  all_goals nofun

theorem exec_ne_notSeeded {i : Instr} {s t : State} (hd : i.draws = false) (ht : exec i s = .next t) :
    t.responses ≠ s.responses ++ [⟨.notSeeded, []⟩] := by
  rcases exec_cases i s with ⟨-, e⟩ | ⟨-, -, e⟩ | ⟨-, -, hd', -⟩ | ⟨-, e⟩
  · rw [e] at ht; cases ht; simp
  · rw [e] at ht; cases ht; simp
  · rw [hd] at hd'; cases hd'
  · rw [e] at ht
    obtain ⟨data, h⟩ := execOpen_status ht
    simp [h, openStatus_ne_notSeeded i s]

/-- Settles O17: the five commands named are those that draw, so the gate of R183 answers them and no other. -/
theorem drawingBeforeSeedAnswersNotSeeded : Obligations.DrawingBeforeSeedAnswersNotSeeded := by
  refine ⟨fun i s hh hw hs hi => ?_, fun i s t hi ht => ?_, fun s hinv => hinv.unseeded⟩
  · have hd : i.draws = true := by
      rcases hi with rfl | ⟨_, rfl⟩ | ⟨_, _, rfl⟩ | ⟨_, rfl⟩ | ⟨_, _, rfl⟩ <;> rfl
    exact exec_of_unseeded i s hh hw hd hs
  · have hd : i.draws = false := by
      rcases hi with ⟨_, rfl⟩ | ⟨_, _, rfl⟩ <;> rfl
    exact exec_ne_notSeeded hd ht

/-- Settles O18: `RANGE 0` is the empty `RANGE2 0, 0`. -/
theorem invalidArgumentsChangeNothing : Obligations.InvalidArgumentsChangeNothing := by
  refine fun s hh => ⟨fun hr hs => ?_, fun c w hc hbad => ?_⟩
  · have hempty : ∀ lo hi : Word, hi.toNat ≤ lo.toNat →
        exec (.range2 lo hi) s = .next (s.answer ⟨.invalidArgument, []⟩) :=
      fun lo hi hle => exec_range2_of_empty (ready_range2 lo hi s hh hr hs) hle
    exact ⟨(exec_range_eq_range2 0 s).trans (hempty 0 0 le_rfl), hempty⟩
  · exact exec_dscfg_of_illegal hh hc ((widthOfField_none_iff w).2 hbad)

/-! ## What a fault changes -/

/-- The state after a command that was answered `r` and met a fault: only the answer is added, and `halted` set by
a contract violation (R189). -/
def State.afterFault (r : Response) (s : State) : State :=
  { s with
    halted := if r.status = .contractViolation then true else s.halted
    responses := s.responses ++ [r] }

theorem answer_eq_afterFault (s : State) {r : Response} (hr : r.status ≠ .contractViolation) :
    s.answer r = s.afterFault r := by
  simp only [State.answer, State.afterFault, if_neg hr]

/-- A command ends with `OK` or with a fault. -/
theorem exec_ok_or_fault : ∀ i s t, exec i s = .next t →
    (∃ data, t.responses = s.responses ++ [⟨.ok, data⟩]) ∨ ∃ f, t = s.afterFault ⟨f, []⟩ := by
  apply exec_next_ind
  case hFault => exact fun _ s f _ hf => .inr ⟨f, answer_eq_afterFault s hf⟩
  case hViolation => exact fun _ _ _ _ _ => .inr ⟨.contractViolation, rfl⟩
  all_goals
    intros
    exact .inl ⟨_, rfl⟩

theorem step_ok_or_fault {s t : State} {c : Command} {rest : List Input} (hin : s.inputs = .command c :: rest)
    (ht : step s = .next t) :
    (∃ data, t.responses = s.responses ++ [⟨.ok, data⟩]) ∨
      ∃ f, t = (s.withInputs rest).afterFault ⟨f, []⟩ := by
  cases hd : decode s.params c with
  | ok i => exact exec_ok_or_fault i _ t ((step_of_decode_ok hin hd).symm.trans ht)
  | error e =>
    rw [step_of_decode_error hin hd] at ht
    cases ht
    refine .inr ⟨_, answer_eq_afterFault _ ?_⟩
    cases s.halted <;> decide

/-- Settles O21: the response tells which end of `step_ok_or_fault` it was. -/
theorem faultsArePrecise : Obligations.FaultsArePrecise := by
  intro s t c rest r hin ht hr hstatus
  rcases step_ok_or_fault hin ht with ⟨data, hok⟩ | ⟨f, rfl⟩
  · obtain rfl : r = ⟨.ok, data⟩ := by simpa [hr] using hok
    exact absurd rfl hstatus
  · obtain rfl : ⟨f, []⟩ = r := by simpa [State.afterFault] using hr
    exact ⟨rfl, rfl⟩

/-! ## The responses already given -/

/-- The block with `rs` given before its other responses. -/
def State.withEarlier (rs : List Response) (s : State) : State := { s with responses := rs ++ s.responses }

/-- The block with no response given. -/
def State.unanswered (s : State) : State := { s with responses := [] }

/-- The outcome with `rs` given before the other responses of its next state. -/
def Result.withEarlier (rs : List Response) : Result → Result
  | .next t => .next (t.withEarlier rs)
  | .fault f => .fault f
  | .refused q => .refused q

section
variable (rs : List Response) (s : State)

theorem unanswered_withEarlier : s.unanswered.withEarlier rs = { s with responses := rs } := by
  simp [State.unanswered, State.withEarlier]

theorem answer_withEarlier (r : Response) : (s.withEarlier rs).answer r = (s.answer r).withEarlier rs := by
  simp [State.answer, State.withEarlier]

theorem next_answer_withEarlier (r : Response) :
    (.next ((s.withEarlier rs).answer r) : Result) = Result.withEarlier rs (.next (s.answer r)) := by
  rw [answer_withEarlier]; rfl

theorem respondInRange_withEarlier (base max : Word) :
    respondInRange base max (s.withEarlier rs) = Result.withEarlier rs (respondInRange base max s) := by
  have hgen : (s.withEarlier rs).gen = s.gen := rfl
  unfold respondInRange
  rw [hgen]
  split
  · exact next_answer_withEarlier rs (s.withGen _) _
  · rfl

theorem execOpen_withEarlier (i : Instr) : execOpen i (s.withEarlier rs) = Result.withEarlier rs (execOpen i s) := by
  cases i with
  | seed seed => exact next_answer_withEarlier rs (s.withGen _) _
  | next64 => exact next_answer_withEarlier rs (s.withGen _) _
  | range max =>
    simp only [execOpen]
    split
    · exact next_answer_withEarlier rs s _
    · exact respondInRange_withEarlier rs s 0 max
  | range2 lo hi =>
    simp only [execOpen]
    split
    · exact next_answer_withEarlier rs s _
    · exact respondInRange_withEarlier rs s lo (hi - lo)
  | dscfg c wb =>
    simp only [execOpen]
    split
    · exact next_answer_withEarlier rs s _
    · exact next_answer_withEarlier rs (s.withChannel _ _) _
  | dsnext c =>
    have hchannel : (s.withEarlier rs).channel c.toNat = s.channel c.toNat := rfl
    simp only [execOpen, hchannel]
    split
    · exact next_answer_withEarlier rs s _
    · exact next_answer_withEarlier rs ((s.withChannel _ _).withGen _) _
  | fill wb n =>
    simp only [execOpen]
    split
    · exact next_answer_withEarlier rs s.withHalted _
    · exact next_answer_withEarlier rs (s.withGen _) _

/-- No command reads a response. -/
theorem exec_withEarlier (i : Instr) : exec i (s.withEarlier rs) = Result.withEarlier rs (exec i s) := by
  rcases exec_cases i s with ⟨hh, e⟩ | ⟨hh, hw, e⟩ | ⟨hh, hw, hd, hs, e⟩ | ⟨hr, e⟩ <;> rw [e]
  · exact (exec_of_halted i (s.withEarlier rs) hh).trans (next_answer_withEarlier rs s _)
  · exact (exec_of_illegal i (s.withEarlier rs) hh hw).trans (next_answer_withEarlier rs s _)
  · exact (exec_of_unseeded i (s.withEarlier rs) hh hw hd hs).trans (next_answer_withEarlier rs s _)
  · exact (exec_of_ready i (s.withEarlier rs) hr).trans (execOpen_withEarlier rs s i)

theorem step_withEarlier : step (s.withEarlier rs) = Result.withEarlier rs (step s) := by
  cases hin : s.inputs with
  | nil =>
    have hin' : (s.withEarlier rs).inputs = [] := hin
    simp only [step, takeInput, hin, hin']; rfl
  | cons input rest =>
    have hin' : (s.withEarlier rs).inputs = input :: rest := hin
    cases input with
    | reset => simp only [step, takeInput, hin, hin']; rfl
    | command c =>
      cases hd : decode s.params c with
      | ok i =>
        rw [step_of_decode_ok hin hd, step_of_decode_ok hin' hd]
        exact exec_withEarlier rs (s.withInputs rest) i
      | error e =>
        rw [step_of_decode_error hin hd, step_of_decode_error hin' hd]
        exact next_answer_withEarlier rs (s.withInputs rest) _

end

/-! ## Recoverable faults -/

theorem respondInRange_ne_refused (base max : Word) (s : State) (q : Refusal) :
    respondInRange base max s ≠ .refused q := by
  rcases respondInRange_cases base max s with ⟨e, -⟩ | ⟨_, -, -, e⟩ <;> rw [e] <;> nofun

theorem execOpen_ne_refused (i : Instr) (s : State) (q : Refusal) : execOpen i s ≠ .refused q := by
  cases i with
  | seed => nofun
  | next64 => nofun
  | range =>
    simp only [execOpen]
    split
    · nofun
    · exact respondInRange_ne_refused _ _ s q
  | range2 =>
    simp only [execOpen]
    split
    · nofun
    · exact respondInRange_ne_refused _ _ s q
  | _ => simp only [execOpen]; split <;> nofun

theorem exec_ne_refused (i : Instr) (s : State) (q : Refusal) : exec i s ≠ .refused q := by
  rcases exec_cases i s with ⟨-, e⟩ | ⟨-, -, e⟩ | ⟨-, -, -, -, e⟩ | ⟨-, e⟩ <;> rw [e]
  case inr.inr.inr => exact execOpen_ne_refused i s q
  all_goals nofun

theorem step_ne_refused (s : State) (q : Refusal) : step s ≠ .refused q := by
  rcases step_cases s with ⟨-, e⟩ | ⟨_, -, e⟩ | ⟨_, rest, i, -, -, e⟩ | ⟨_, _, _, -, -, e⟩ <;> rw [e]
  case inr.inr.inl => exact exec_ne_refused i _ q
  all_goals nofun

/-- Settles O22: by `faultsArePrecise` the two states differ in the responses already given, which `step` does not
read. -/
theorem recoverableFaultsLeaveNoTrace : Obligations.RecoverableFaultsLeaveNoTrace := by
  intro s t c rest r hin ht hr
  refine ⟨fun hok hviolation _ => ?_, fun hviolation => ?_⟩
  · obtain ⟨-, hafter⟩ := faultsArePrecise s t c rest r hin ht hr hok
    have hwith : t = (s.withInputs rest).unanswered.withEarlier (s.responses ++ [r]) := by
      rw [hafter, if_neg hviolation, unanswered_withEarlier]; rfl
    have hwithout : ({ s with inputs := rest } : State) = (s.withInputs rest).unanswered.withEarlier s.responses := by
      rw [unanswered_withEarlier]; rfl
    rw [hwith, hwithout, step_withEarlier, step_withEarlier]
    cases hu : step (s.withInputs rest).unanswered with
    | next a => exact ⟨a.responses, rfl, rfl⟩
    | fault f => exact rfl
    | refused q => exact absurd hu (step_ne_refused _ q)
  · obtain ⟨-, rfl⟩ := faultsArePrecise s t c rest r hin ht hr (by simp [hviolation])
    exact if_pos hviolation

end Sys2Proof.Machine
end

section
/-! PROOFS. The encoder against the decoder: a word that reads as a command is the word the command encodes to, and
what the two extension parameters decide. -/

namespace Sys2Proof

/-! ## The fields of an encoded command word -/

theorem opField_or (x y : BitVec 16) : opField (x ||| y) = opField x ||| opField y :=
  BitVec.extractLsb'_or

theorem wbField_or (x y : BitVec 16) : wbField (x ||| y) = wbField x ||| wbField y :=
  BitVec.extractLsb'_or

theorem chField_or (x y : BitVec 16) : chField (x ||| y) = chField x ||| chField y :=
  BitVec.extractLsb'_or

/-- A width shifted to bit 8 fills the field `wb` and no other (R71). -/
theorem fields_of_shifted_width (w : BitVec 4) :
    opField (w.setWidth 16 <<< 8) = 0 ∧ wbField (w.setWidth 16 <<< 8) = w ∧ chField (w.setWidth 16 <<< 8) = 0 := by
  revert w; decide

/-- A channel number at bit 0 fills the field `ch` and no other (R71). -/
theorem fields_of_channel (c : BitVec 8) :
    opField (c.setWidth 16) = 0 ∧ wbField (c.setWidth 16) = 0 ∧ chField (c.setWidth 16) = c := by
  have := c.isLt
  simp only [opField, wbField, chField, ← BitVec.toNat_inj, BitVec.extractLsb'_toNat, BitVec.toNat_setWidth,
    Nat.shiftRight_eq_div_pow, BitVec.ofNat_eq_ofNat, BitVec.toNat_ofNat]
  omega

/-- Every command reads the word that encodes it. -/
theorem reads_encode (i : Instr) : i.Reads (encode i) := by
  cases i with
  | dscfg c w =>
    obtain ⟨hop, hwb, hch⟩ := fields_of_shifted_width w
    obtain ⟨hop', hwb', hch'⟩ := fields_of_channel c
    simp only [Instr.Reads, encode, opField_or, wbField_or, chField_or, hop, hwb, hch, hop', hwb', hch']
    exact ⟨by decide, by simp [wbField], by simp [chField]⟩
  | dsnext c =>
    obtain ⟨hop', hwb', hch'⟩ := fields_of_channel c
    simp only [Instr.Reads, encode, opField_or, wbField_or, chField_or, hop', hwb', hch']
    exact ⟨by decide, by decide, by simp [chField]⟩
  | fill w n =>
    obtain ⟨hop, hwb, hch⟩ := fields_of_shifted_width w
    simp only [Instr.Reads, encode, opField_or, wbField_or, chField_or, hop, hwb, hch]
    exact ⟨by decide, by simp [wbField], by decide, trivial⟩
  | _ => simp [Instr.Reads, encode, opField, wbField, chField]

/-- The words one command reads have the same three fields, so they are one word. -/
theorem cw_eq_of_reads {i : Instr} {c d : Command} (hc : i.Reads c) (hd : i.Reads d) : c.cw = d.cw := by
  rw [commandWord_ext_iff, ← BitVec.toNat_inj]
  cases i <;> simp_all [Instr.Reads]

/-- Settles O1: every command reads its own encoding. -/
theorem decodeInvertsEncode : Obligations.DecodeInvertsEncode :=
  fun p i hw => (decode_ok_iff_reads p (encode i) i).2 ⟨reads_encode i, hw⟩

/-- Settles O2: the presented word and the encoded one are both read by the command. -/
theorem decodedWordIsTheEncodedWord : Obligations.DecodedWordIsTheEncodedWord := by
  intro p c i h
  obtain ⟨hreads, hw⟩ := (decode_ok_iff_reads p c i).1 h
  exact ⟨cw_eq_of_reads (reads_encode i) hreads, hw⟩

/-! ## The extension parameters -/

/-- Blocks on which the command a word names, if any, meets the same tests of the parameters decode the word alike. -/
theorem decode_congr {p q : Params} {c : Command} (h : ∀ i : Instr, i.Reads c → checkParams p i = checkParams q i) :
    decode p c = decode q c := by
  unfold decode
  split
  case h_1 i hi => exact h i (reads_of_decodeFields_ok c i hi)
  case h_2 => rfl

/-- Settles O7: the reserved opcodes are cases of R77, and the tests of the parameters look at one extension for the
commands of its opcodes and at none for the others. -/
theorem absentExtensionsAreReservedOpcodes : Obligations.AbsentExtensionsAreReservedOpcodes := by
  intro p c op
  refine ⟨fun hr hop => ?_, fun hf hop => ?_, fun h3 h4 h7 r f => ?_, fun hop f => ?_, fun hop r => ?_⟩
  · exact (exists_decode_error_iff p c).2
      ((not_legalFields_iff p _ _ _).2 (.inr (.inr (.inr (.inr (.inr (.inl ⟨hop, hr⟩)))))))
  · exact (exists_decode_error_iff p c).2
      ((not_legalFields_iff p _ _ _).2 (.inr (.inr (.inr (.inr (.inr (.inr ⟨hop, hf⟩)))))))
  all_goals
    refine decode_congr fun i hi => ?_
    cases i <;> simp_all [Instr.Reads, checkParams, opField, op]

/-- Settles O8, by running the decoder on each word. -/
theorem sampleWordsDecode : Obligations.SampleWordsDecode := by
  unfold Obligations.SampleWordsDecode
  decide

end Sys2Proof
end

section
/-! PROOFS. Steps and resets: what reset makes of a block, what each command leaves unchanged, and the invariant that
every step keeps. -/

namespace Sys2Proof.Machine

/-! ## The status codes -/

/-- The statuses of R82, in the order of their codes. -/
def Status.all : List Status :=
  [.ok, .invalidArgument, .notSeeded, .notConfigured, .illegalCommand, .contractViolation, .halted]

theorem Status.mem_all (f : Status) : f ∈ Status.all := by
  cases f <;> simp [Status.all]

theorem Status.codes : Status.all.map (fun f => f.code.toNat) = [0, 1, 2, 3, 4, 5, 6] := rfl

/-- Settles O13: the codes of all statuses are 0 to 6, each once. -/
theorem statusCodesAreNumbered : Obligations.StatusCodesAreNumbered := by
  refine ⟨Status.codes, fun f => ?_, fun f g h => ?_⟩
  · have hmem : f.code.toNat ∈ [0, 1, 2, 3, 4, 5, 6] := Status.codes ▸ List.mem_map_of_mem f.mem_all
    simp only [List.mem_cons, List.not_mem_nil, or_false] at hmem
    omega
  · have hnodup : (Status.all.map fun f => f.code.toNat).Nodup := by rw [Status.codes]; decide
    exact List.inj_on_of_nodup_map hnodup f.mem_all g.mem_all (congrArg BitVec.toNat h)

/-! ## The step and its responses -/

/-- Settles O9: the case of a command that decodes. -/
theorem stepRunsDecodedCommand : Obligations.StepRunsDecodedCommand :=
  fun _ _ _ _ hin hd => step_of_decode_ok hin hd

/-- A command taken and one response added keep the sum of R221. -/
theorem commandCount_of_command {s t : State} {c : Command} {rest : List Input} {r : Response}
    (hin : s.inputs = .command c :: rest) (ht : t.inputs = rest) (hr : t.responses = s.responses ++ [r]) :
    (∃ new, t.responses = s.responses ++ new) ∧
    t.responses.length + commandCount t.inputs = s.responses.length + commandCount s.inputs := by
  refine ⟨⟨[r], hr⟩, ?_⟩
  simp only [hr, ht, hin, commandCount, List.length_append, List.length_singleton]
  omega

/-- Settles O11: a command taken adds one response by `exec` or as an illegal word; reset and idling add none. -/
theorem oneResponsePerCommand : Obligations.OneResponsePerCommand := by
  refine ⟨fun s t ht => ?_, fun s hin => ?_⟩
  · rcases step_cases s with ⟨-, e⟩ | ⟨rest, hin, e⟩ | ⟨c, rest, i, hin, -, e⟩ | ⟨c, rest, _, hin, -, e⟩ <;>
      rw [e] at ht
    · cases ht
      exact ⟨⟨[], (List.append_nil _).symm⟩, rfl⟩
    · cases ht
      exact ⟨⟨[], (List.append_nil _).symm⟩, by rw [hin]; rfl⟩
    · obtain ⟨r, hr⟩ := exec_responses i _ t ht
      exact commandCount_of_command hin (exec_inputs i _ t ht) hr
    · cases ht
      exact commandCount_of_command hin rfl rfl
  · simp only [step, takeInput, hin]

/-- Settles O56: only the fields that make the parameters could change them, and every command keeps those. -/
theorem stepKeepsTheParameters : Obligations.StepKeepsTheParameters := by
  intro s t ht
  rcases step_cases s with ⟨-, e⟩ | ⟨rest, -, e⟩ | ⟨_, rest, i, -, -, e⟩ | ⟨_, rest, _, -, -, e⟩ <;> rw [e] at ht
  case inr.inr.inl => exact exec_params i (s.withInputs rest) t ht
  all_goals cases ht; simp

/-! ## Reset -/

theorem resetOf_params (p : Params) : (State.resetOf p).params = p := by
  simp [State.resetOf, State.params]

theorem channel_eq_atReset {s : State} {n : Nat} (h : s.ch = List.replicate n Channel.atReset) (c : Nat) :
    s.channel c = Channel.atReset := by
  rw [State.channel, h, List.getD_eq_getElem?_getD, List.getElem?_getD_replicate_default_eq]

/-- Reset restores the block of the same parameters, but for the two ports. -/
theorem applyReset_eq (s : State) :
    s.applyReset = { State.resetOf s.params with inputs := s.inputs, responses := s.responses } := rfl

/-- Settles O14: every channel of `resetOf` is `Channel.atReset`. -/
theorem resetRegisterValues : Obligations.ResetRegisterValues := by
  refine fun p => ⟨rfl, rfl, rfl, resetOf_params p, fun c _ => ?_, rfl, rfl⟩
  rw [channel_eq_atReset (s := State.resetOf p) rfl c]
  exact ⟨rfl, rfl⟩

/-- Settles O15, by `applyReset_eq`. -/
theorem resetInputRestoresResetValues : Obligations.ResetInputRestoresResetValues := by
  intro s rest hin
  refine ⟨(s.withInputs rest).applyReset, ?_, applyReset_eq _, rfl, rfl, rfl, fun c _ => ?_⟩
  · simp only [step, takeInput, hin, runInput]
  · rw [channel_eq_atReset (State.applyReset_ch _) c]
    exact ⟨rfl, rfl⟩

/-! ## The invariant -/

theorem atReset_inv : Channel.atReset.Inv := rfl

/-- A channel just configured holds no byte (R130). -/
theorem configured_inv (w : Width) (x : Word) : (Channel.configured w x).Inv := by
  unfold Channel.Inv
  split
  · rfl
  · exact ⟨by simpa using w.bytes_le_eight, Nat.zero_mod _⟩

/-- The registers that reset writes meet the invariant, on a block of parameters R6 allows. -/
theorem inv_of_reset_registers {s : State} (hp : s.params.wf = true) (hh : s.halted = false)
    (hch : ∀ k ∈ s.ch, k = Channel.atReset) : s.Inv where
  params := hp
  channels k hk := hch k hk ▸ atReset_inv
  unseeded _ k hk := hch k hk ▸ rfl
  halted h := by rw [hh] at h; cases h

theorem resetOf_inv {p : Params} (hp : p.wf = true) : (State.resetOf p).Inv :=
  inv_of_reset_registers (by rwa [resetOf_params]) rfl fun _ hk => List.eq_of_mem_replicate hk

/-- Settles O54. -/
theorem resetMeetsTheInvariant : Obligations.ResetMeetsTheInvariant :=
  ⟨fun _ hp => resetOf_inv hp, resetOf_inv (by decide)⟩

section
variable {s : State} (h : s.Inv)
include h

/-- The two ports are not registers: the invariant does not look at them. -/
theorem State.Inv.withInputs (is : List Input) : (s.withInputs is).Inv :=
  ⟨h.params, h.channels, h.unseeded, h.halted⟩

theorem State.Inv.answer (r : Response) : (s.answer r).Inv :=
  ⟨h.params, h.channels, h.unseeded, h.halted⟩

theorem State.Inv.applyReset : s.applyReset.Inv :=
  inv_of_reset_registers (by simpa using h.params) rfl fun _ hk => List.eq_of_mem_replicate hk

/-- A seeded GEN meets every clause about GEN. -/
theorem State.Inv.withGen {g : Gen} (hg : g.seeded = true) : (s.withGen g).Inv where
  params := h.params
  channels := h.channels
  unseeded hu := by rw [State.withGen_gen, hg] at hu; cases hu
  halted _ := hg

theorem State.Inv.withHalted (hs : s.gen.seeded = true) : s.withHalted.Inv :=
  ⟨h.params, h.channels, h.unseeded, fun _ => hs⟩

/-- A channel may be replaced by one that meets R31, and on an unseeded block holds no byte (R183). -/
theorem State.Inv.withChannel {c : Nat} {k : Channel} (hk : k.Inv) (hu : s.gen.seeded = false → k.rem.val = 0) :
    (s.withChannel c k).Inv where
  params := by rw [State.withChannel_params]; exact h.params
  channels l hl := by
    rcases List.mem_or_eq_of_mem_set hl with hl | rfl
    · exact h.channels l hl
    · exact hk
  unseeded hs l hl := by
    rcases List.mem_or_eq_of_mem_set hl with hl | rfl
    · exact h.unseeded hs l hl
    · exact hu hs
  halted := h.halted

end

/-- A command that draws and has passed the tests of R188 finds the block seeded. -/
theorem Ready.seeded {i : Instr} {s : State} (h : Ready i s) (hd : i.draws = true) : s.gen.seeded = true := h.2.2 hd

theorem Ready.dscfg_channel {c : BitVec 8} {w : BitVec 4} {s : State} (h : Ready (.dscfg c w) s) :
    c.toNat < s.ch.length := of_decide_eq_true h.2.1

theorem Ready.dsnext_channel {c : BitVec 8} {s : State} (h : Ready (.dsnext c) s) : c.toNat < s.ch.length :=
  of_decide_eq_true h.2.1

theorem exec_inv : ∀ i s t, exec i s = .next t → s.Inv → t.Inv := by
  apply exec_next_ind
  case hFault => exact fun _ _ _ _ _ h => h.answer _
  case hViolation => exact fun _ _ _ hr _ h => (h.withHalted (hr.seeded rfl)).answer _
  case hSeed => exact fun _ _ _ h => (h.withGen rfl).answer _
  case hNext64 => exact fun s hr h => (h.withGen (g := (draw s.gen).2) (hr.seeded rfl)).answer _
  case hRange => exact fun _ _ _ hr _ _ h => (h.withGen (by simpa using hr.seeded rfl)).answer _
  case hRange2 => exact fun _ _ _ _ hr _ _ h => (h.withGen (by simpa using hr.seeded rfl)).answer _
  case hDscfg => exact fun _ _ w _ _ _ h => (h.withChannel (configured_inv w _) fun _ => rfl).answer _
  case hDsnext =>
    intro c s hr hw h
    have hs : s.gen.seeded = true := hr.seeded rfl
    have hk := takeWindow_inv _ s.gen hw (h.channels _ (s.channel_mem _ hr.dsnext_channel))
    refine ((h.withChannel hk fun hu => ?_).withGen (by simpa using hs)).answer _
    rw [hs] at hu; cases hu
  case hFill => exact fun _ _ _ _ hr _ h => (h.withGen (by simpa using hr.seeded rfl)).answer _

/-- Settles O55: idling and illegal words touch no register, `applyReset` and `exec` keep the invariant. -/
theorem stepKeepsTheInvariant : Obligations.StepKeepsTheInvariant := by
  intro s t h ht
  rcases step_cases s with ⟨-, e⟩ | ⟨rest, -, e⟩ | ⟨_, rest, i, -, -, e⟩ | ⟨_, rest, _, -, -, e⟩ <;> rw [e] at ht
  · cases ht; exact h
  · cases ht; exact (h.withInputs rest).applyReset
  · exact exec_inv i _ t ht (h.withInputs rest)
  · cases ht; exact (h.withInputs rest).answer _

/-! ## Frames -/

/-- The registers a command may not write, as `Obligations.CommandFrames` lists them. -/
def KeepsFrame (i : Instr) (s t : State) : Prop :=
  match i with
  | .seed _ => t.halted = s.halted ∧ t.ch = s.ch
  | .next64 => t.halted = s.halted ∧ t.ch = s.ch ∧ t.gen.seeded = s.gen.seeded
  | .range _ => t.halted = s.halted ∧ t.ch = s.ch ∧ t.gen.seeded = s.gen.seeded
  | .range2 _ _ => t.halted = s.halted ∧ t.ch = s.ch ∧ t.gen.seeded = s.gen.seeded
  | .dscfg c _ => t.halted = s.halted ∧ t.gen = s.gen ∧
      (t.channel c.toNat).sample = (s.channel c.toNat).sample ∧ ∀ d, d ≠ c.toNat → t.channel d = s.channel d
  | .dsnext c => t.halted = s.halted ∧ t.gen.seeded = s.gen.seeded ∧
      (t.channel c.toNat).w = (s.channel c.toNat).w ∧
      ((s.channel c.toNat).rem.val ≠ 0 → t.gen = s.gen ∧ (t.channel c.toNat).sample = (s.channel c.toNat).sample) ∧
      ∀ d, d ≠ c.toNat → t.channel d = s.channel d
  | .fill w _ => t.ch = s.ch ∧ t.gen.seeded = s.gen.seeded ∧
      (w.toNat ≠ 0 ∧ 8 % w.toNat = 0 → t.halted = s.halted)

theorem keepsFrame_answer (i : Instr) (s : State) (r : Response) : KeepsFrame i s (s.answer r) := by
  cases i <;> simp [KeepsFrame]

theorem exec_keepsFrame : ∀ i s t, exec i s = .next t → KeepsFrame i s t := by
  apply exec_next_ind
  case hFault => exact fun i s f _ _ => keepsFrame_answer i s _
  case hViolation =>
    refine fun wb n s _ hw => ⟨rfl, rfl, fun ⟨h0, h8⟩ => ?_⟩
    rcases (widthOfField_none_iff wb).1 hw with h | h <;> contradiction
  case hSeed => exact fun _ _ _ => ⟨rfl, rfl⟩
  case hNext64 => exact fun _ _ => ⟨rfl, rfl, rfl⟩
  case hRange => exact fun _ _ _ _ _ _ => ⟨rfl, rfl, by simp⟩
  case hRange2 => exact fun _ _ _ _ _ _ _ => ⟨rfl, rfl, by simp⟩
  case hDscfg =>
    refine fun c _ w s hr _ => ⟨rfl, rfl, ?_, fun d hd => s.withChannel_channel_other c.toNat d _ hd.symm⟩
    rw [State.answer_channel, s.withChannel_channel_same _ _ hr.dscfg_channel, Channel.configured_sample]
  case hDsnext =>
    intro c s hr hw
    refine ⟨rfl, by simp, ?_, fun hrem => ?_, fun d hd => afterWindow_channel_other s hd⟩
    · exact (congrArg Channel.w (afterWindow_channel hr.dsnext_channel)).trans (takeWindow_w _ _)
    · have hrefill := refill_eq (s.channel c.toNat) s.gen
      rw [if_neg hrem] at hrefill
      exact ⟨congrArg Prod.snd hrefill, (congrArg Channel.sample (afterWindow_channel hr.dsnext_channel)).trans
        (congrArg (·.1.sample) hrefill)⟩
  case hFill => exact fun _ _ _ _ _ _ => ⟨rfl, by simp, fun _ => rfl⟩

/-- Settles O53: the parameters and inputs by `exec_params` and `exec_inputs`, the registers by `exec_keepsFrame`. -/
theorem commandFrames : Obligations.CommandFrames := by
  intro i s t ht
  obtain ⟨hlength, hrange, hfill⟩ := Params.mk.inj (exec_params i s t ht)
  exact ⟨hrange, hfill, exec_inputs i s t ht, hlength, exec_keepsFrame i s t ht⟩

/-! ## What only reset undoes -/

/-- Who writes `seeded`: `SEED`, which sets it (R25). -/
theorem exec_seeded : ∀ i s t, exec i s = .next t →
    t.gen.seeded = s.gen.seeded ∨ (∃ seed, i = .seed seed) ∧ t.gen.seeded = true := by
  apply exec_next_ind
  case hSeed => exact fun seed _ _ => .inr ⟨⟨seed, rfl⟩, rfl⟩
  all_goals intros; exact .inl (by simp)

/-- Who writes `halted`: `FILL`, which sets it (R182). -/
theorem exec_halted : ∀ i s t, exec i s = .next t →
    t.halted = s.halted ∨ (∃ w n, i = .fill w n) ∧ t.halted = true := by
  apply exec_next_ind
  case hViolation => exact fun wb n _ _ _ => .inr ⟨⟨wb, n, rfl⟩, rfl⟩
  all_goals intros; exact .inl rfl

/-- Who writes the width of a channel: `DSCFG` of that channel, which configures it (R30). -/
theorem exec_width (d : Nat) : ∀ i s t, exec i s = .next t →
    (t.channel d).w = (s.channel d).w ∨
      (∃ c w, i = .dscfg c w ∧ d = c.toNat) ∧ (t.channel d).w ≠ .notConfigured := by
  apply exec_next_ind
  case hDscfg =>
    intro c wb w s hr hw
    by_cases hd : d = c.toNat
    · subst hd
      rw [State.answer_channel, s.withChannel_channel_same _ _ hr.dscfg_channel]
      exact .inr ⟨⟨c, wb, rfl, rfl⟩, (widthOfField_some wb w hw).2⟩
    · exact .inl (congrArg Channel.w (s.withChannel_channel_other c.toNat d _ (Ne.symm hd)))
  case hDsnext =>
    intro c s hr _
    by_cases hd : d = c.toNat
    · subst hd
      exact .inl ((congrArg Channel.w (afterWindow_channel hr.dsnext_channel)).trans (takeWindow_w _ _))
    · exact .inl (congrArg Channel.w (afterWindow_channel_other s hd))
  all_goals intros; exact .inl rfl

/-- Settles O57: each flag and width has one writer, which sets it. -/
theorem onlyResetUndoesAConstruction : Obligations.OnlyResetUndoesAConstruction := by
  intro i s t ht
  have hseeded := exec_seeded i s t ht
  have hhalted := exec_halted i s t ht
  have hwidth := fun d => exec_width d i s t ht
  refine ⟨fun h => ?_, fun h => ?_, fun d h => ?_, fun h => ?_, fun d h => ?_, fun h => ?_⟩
  · exact hseeded.elim (·.trans h) (·.2)
  · exact hhalted.elim (·.trans h) (·.2)
  · exact (hwidth d).elim (· ▸ h) (·.2)
  · exact (hseeded.resolve_left h).1
  · exact ((hwidth d).resolve_left h).1
  · exact (hhalted.resolve_left h).1

end Sys2Proof.Machine
end

section
/-! PROOFS. What each command makes of GEN: the expansion of a seed, or a number of draws; and the one command that
never ends. -/

namespace Sys2Proof.Machine

/-! ## SEED -/

theorem exec_seed (seed : Word) {s : State} (h : s.halted = false) :
    exec (.seed seed) s = .next ((s.withGen (seedGen seed)).answer ⟨.ok, []⟩) :=
  exec_of_ready _ _ (ready_seed seed s h)

/-- Word 0 is the seed, and where that is 0, word 1 is 1 (R102). -/
theorem seedGen_ne_zero (seed : Word) : ∃ i : Fin 312, (seedGen seed).mt[i.val] ≠ 0 := by
  by_cases h : seed = 0
  · refine ⟨1, ?_⟩
    subst h
    rw [seedGen_getElem]
    decide
  · refine ⟨0, ?_⟩
    rwa [seedGen_getElem]

/-- Settles O24: GEN after `SEED` is `seedGen` of the seed. -/
theorem seedAloneDeterminesTheGenerator : Obligations.SeedAloneDeterminesTheGenerator :=
  fun seed _ _ hs hu => ⟨_, _, exec_seed seed hs, exec_seed seed hu, rfl, rfl, seedGen_ne_zero seed⟩

/-- Settles O41: `SEED` touches no channel, so the channel serves, and without a draw. -/
theorem staleBytesOutliveSeed : Obligations.StaleBytesOutliveSeed := by
  intro seed c s t hh hc hw _ hrem ht
  rw [exec_seed seed hh] at ht
  cases ht
  refine ⟨rfl, _, exec_dsnext ⟨hh, hc, rfl, hw⟩, ?_, ?_⟩
  · rw [afterWindow_gen, refill_gen]
    exact if_neg hrem
  · simp only [State.afterWindow, State.answer_responses, State.withGen_responses, State.withChannel_responses,
      takeWindow_value, refill_rem, refill_sample, State.answer_channel, State.withGen_channel, if_neg hrem,
      List.append_assoc, List.singleton_append]

/-! ## The draws of a command -/

/-- The vector after some draws is the vector twisted some number of times (R24). -/
theorem genAfter_mt (k : Nat) (g : Gen) : ∃ n, (genAfter k g).mt = twist^[n] g.mt := by
  induction k with
  | zero => exact ⟨0, rfl⟩
  | succ k ih =>
    obtain ⟨n, hn⟩ := ih
    obtain ⟨hlt, hfull, -⟩ := drawTakesTheWordAtTheCursor (genAfter k g)
    rcases Nat.lt_or_ge (genAfter k g).idx.val 312 with h | h
    · obtain ⟨-, hmt, -⟩ := hlt h
      exact ⟨n, hmt.trans hn⟩
    · obtain ⟨-, hmt, -⟩ := hfull (by omega)
      exact ⟨n + 1, by rw [genAfter, hmt, hn, Function.iterate_succ_apply']⟩

/-- The draws for `n` windows of `w` bytes, counted by samples and by bytes (R134, R172). -/
theorem samples_eq_bytes {w : Width} (hw : w ≠ .notConfigured) (n : Nat) :
    (n + 8 / w.bytes - 1) / (8 / w.bytes) = (n * w.bytes + 7) / 8 := by
  cases w <;> simp only [Width.bytes, ne_eq, not_true_eq_false] at hw ⊢ <;> omega

/-- GEN after an OK answer of `i` on state `s`, as `Obligations.CommandsChangeGenByDrawsAlone` lists it. -/
def GenFits (i : Instr) (s : State) (g : Gen) : Prop :=
  match i with
  | .seed seed => g = seedGen seed
  | .next64 => g = genAfter 1 s.gen
  | .range _ => ∃ k, 1 ≤ k ∧ g = genAfter k s.gen
  | .range2 _ _ => ∃ k, 1 ≤ k ∧ g = genAfter k s.gen
  | .dscfg _ _ => g = s.gen
  | .dsnext c => g = genAfter (if (s.channel c.toNat).rem.val = 0 then 1 else 0) s.gen
  | .fill w n => g = genAfter ((n.toNat * w.toNat + 7) / 8) s.gen

/-- A command that answers leaves GEN as it was, with an answer other than OK, or as `GenFits` says. -/
theorem exec_gen : ∀ i s t, exec i s = .next t →
    (t.gen = s.gen ∧ ∃ f, f ≠ .ok ∧ t.responses = s.responses ++ [⟨f, []⟩]) ∨ GenFits i s t.gen := by
  apply exec_next_ind
  case hFault => exact fun _ _ f hf _ => .inl ⟨rfl, f, hf, rfl⟩
  case hViolation => exact fun _ _ _ _ _ => .inl ⟨rfl, .contractViolation, by decide, rfl⟩
  case hRange => exact fun _ _ k _ _ _ => .inr ⟨k + 1, Nat.le_add_left 1 k, rfl⟩
  case hRange2 => exact fun _ _ _ k _ _ _ => .inr ⟨k + 1, Nat.le_add_left 1 k, rfl⟩
  case hDsnext =>
    intro c s _ _
    have hdraws := takeWindow_draws (s.channel c.toNat) s.gen
    simp only [← Fin.val_eq_zero_iff] at hdraws
    exact .inr hdraws
  case hFill =>
    intro wb n w s _ hw
    obtain ⟨hbytes, hconf⟩ := widthOfField_some wb w hw
    have hgen : (takeWindows n.toNat (Channel.configured w 0) s.gen).2 =
        genAfter ((n.toNat * wb.toNat + 7) / 8) s.gen := by
      rw [takeWindows_configured hconf, samples_eq_bytes hconf, hbytes]
    exact .inr hgen
  all_goals intros; exact .inr rfl

/-- Settles O34: an OK answer is the second case of `exec_gen`. -/
theorem commandsChangeGenByDrawsAlone : Obligations.CommandsChangeGenByDrawsAlone := by
  intro i s t r ht hr hok
  rcases exec_gen i s t ht with ⟨-, f, hf, hf'⟩ | h
  · obtain rfl : ⟨f, []⟩ = r := by simpa [hf'] using hr
    exact absurd hok hf
  · exact h

/-- A command other than `SEED` changes GEN by draws alone. -/
theorem exec_gen_eq_genAfter {i : Instr} {s t : State} (ht : exec i s = .next t) :
    (∃ seed, i = .seed seed) ∨ ∃ k, t.gen = genAfter k s.gen := by
  rcases exec_gen i s t ht with ⟨hg, -⟩ | h
  · exact .inr ⟨0, hg⟩
  · cases i with
    | seed seed => exact .inl ⟨seed, rfl⟩
    | range max => exact .inr (h.imp fun _ => And.right)
    | range2 lo hi => exact .inr (h.imp fun _ => And.right)
    | dscfg c w => exact .inr ⟨0, h⟩
    | _ => exact .inr ⟨_, h⟩

/-- Settles O33: draws write the vector by the twist alone. -/
theorem onlySeedAndTwistWriteTheVector : Obligations.OnlySeedAndTwistWriteTheVector := by
  intro i s t ht
  refine (exec_gen_eq_genAfter ht).imp_right fun ⟨k, hk⟩ => ?_
  rw [hk]
  exact genAfter_mt k s.gen

/-- Settles O39: the windows of `n` `DSNEXT`s by number. -/
theorem oneDrawPerSampleOfWindows : Obligations.OneDrawPerSampleOfWindows := by
  intro c s n hh hc hs hw hempty w
  have h : Serves c s := ⟨hh, hc, hs, hw⟩
  obtain ⟨hslice, hresponses⟩ := h.iterate_sliced hempty n
  refine ⟨_, execTimes_dsnext h n, ?_, hslice.rem, ?_⟩
  · rw [hslice.gen, samples_eq_bytes hw]
  · simp [hresponses]

/-! ## The endless loop -/

theorem respondInRange_fault_iff (base max : Word) (s : State) (f : Fault) :
    respondInRange base max s = .fault f ↔ ∀ k, rejects max (drawAt s.gen k) = true := by
  rcases respondInRange_cases base max s with ⟨e, hrej⟩ | ⟨k, -, ha, e⟩ <;> rw [e]
  · exact ⟨fun _ => rejects_forever max s.gen hrej, fun _ => by cases f; rfl⟩
  · refine ⟨nofun, fun h => ?_⟩
    have := h k
    rw [ha.2] at this
    cases this

/-- A range command is its argument test and then the loop (R150, R154). -/
theorem tested_respondInRange_fault_iff {bad : Prop} [Decidable bad] (e : Status) (base max : Word) (s : State)
    (f : Fault) : (if bad then raise e s else respondInRange base max s) = .fault f ↔
      ¬ bad ∧ ∀ k, rejects max (drawAt s.gen k) = true := by
  split
  case isTrue h => exact ⟨nofun, fun hnot => absurd h hnot.1⟩
  case isFalse h => rw [respondInRange_fault_iff, and_iff_right h]

/-- A range command that passes its argument test and whose every draw is rejected (R153). -/
def LoopsForever (i : Instr) (s : State) : Prop :=
  (∃ max, i = .range max ∧ max ≠ 0 ∧ ∀ k, rejects max (drawAt s.gen k) = true) ∨
  ∃ lo hi, i = .range2 lo hi ∧ lo.toNat < hi.toNat ∧ ∀ k, rejects (hi - lo) (drawAt s.gen k) = true

theorem LoopsForever.draws {i : Instr} {s : State} (h : LoopsForever i s) : i.draws = true := by
  rcases h with ⟨_, rfl, -⟩ | ⟨_, _, rfl, -⟩ <;> rfl

theorem execOpen_fault_iff (i : Instr) (s : State) (f : Fault) : execOpen i s = .fault f ↔ LoopsForever i s := by
  cases i with
  | range max =>
    rw [execOpen, tested_respondInRange_fault_iff]
    simp [LoopsForever]
  | range2 lo hi =>
    rw [execOpen, tested_respondInRange_fault_iff]
    simp [LoopsForever, BitVec.lt_def]
  | seed => simp [execOpen, LoopsForever]
  | next64 => simp [execOpen, LoopsForever]
  | _ => simp only [execOpen, LoopsForever]; split <;> simp

theorem exec_fault_iff (i : Instr) (s : State) (f : Fault) :
    exec i s = .fault f ↔ Ready i s ∧ LoopsForever i s := by
  rcases exec_cases i s with ⟨hh, e⟩ | ⟨-, hw, e⟩ | ⟨-, -, hd, hs, e⟩ | ⟨hr, e⟩ <;> rw [e]
  · exact ⟨nofun, fun ⟨⟨hh', _, _⟩, _⟩ => by simp [hh'] at hh⟩
  · exact ⟨nofun, fun ⟨⟨_, hw', _⟩, _⟩ => by simp [hw'] at hw⟩
  · exact ⟨nofun, fun ⟨⟨_, _, hs'⟩, _⟩ => by simp [hs' hd] at hs⟩
  · rw [execOpen_fault_iff]
    exact (and_iff_right hr).symm

/-- Settles O43: a command that can loop draws, so it is `Ready` on a seeded block only. -/
theorem onlyAnEndlessRejectionLoopStops : Obligations.OnlyAnEndlessRejectionLoopStops := by
  refine fun i s f => ⟨(exec_fault_iff i s f).trans ?_, exec_ne_refused i s⟩
  constructor
  · exact fun ⟨⟨hh, hw, hs⟩, hloop⟩ => ⟨hh, hw, hs hloop.draws, hloop⟩
  · exact fun ⟨hh, hw, hs, hloop⟩ => ⟨⟨hh, hw, fun _ => hs⟩, hloop⟩

end Sys2Proof.Machine
end

section
/-! PROOFS. What the spec leaves unspecified: two blocks that differ in nothing else step alike. -/

namespace Sys2Proof.Machine

/-! ## Related channels -/

/-- A refill reads a sample only where bytes of it are left. -/
theorem Channel.SameBytes.refill_eq {k l : Channel} (h : k.SameBytes l) (g : Gen) : refill k g = refill l g := by
  obtain ⟨kw, kr, ks⟩ := k
  obtain ⟨lw, lr, ls⟩ := l
  obtain ⟨rfl, rfl, hsample⟩ := h
  by_cases hr : kr = 0
  · rw [refill_of_rem_zero _ g hr, refill_of_rem_zero _ g hr]
  · obtain rfl := hsample hr
    rfl

theorem Channel.SameBytes.takeWindow_eq {k l : Channel} (h : k.SameBytes l) (g : Gen) :
    takeWindow k g = takeWindow l g := by
  rw [takeWindow, takeWindow, h.refill_eq g]

theorem Channel.SameBytes.refl (k : Channel) : k.SameBytes k := ⟨rfl, rfl, fun _ => rfl⟩

theorem Channel.SameBytes.configured (w : Width) (x y : Word) :
    (Channel.configured w x).SameBytes (Channel.configured w y) :=
  ⟨rfl, rfl, fun h => absurd rfl h⟩

theorem sameBytes_set {ks ls : List Channel} (h : List.Forall₂ Channel.SameBytes ks ls) {k l : Channel}
    (hkl : k.SameBytes l) (c : Nat) : List.Forall₂ Channel.SameBytes (ks.set c k) (ls.set c l) := by
  induction h generalizing c with
  | nil => exact .nil
  | cons hhead htail ih =>
    cases c with
    | zero => exact .cons hkl htail
    | succ c => exact .cons hhead (ih c)

/-! ## Related states -/

section
variable {s u : State} (h : SameSpecified s u)
include h

theorem SameSpecified.params : s.params = u.params := by
  simp only [State.params, h.channels.length_eq, h.hasRange, h.hasFill]

theorem SameSpecified.channel (c : Nat) : (s.channel c).SameBytes (u.channel c) := by
  rcases Nat.lt_or_ge c s.ch.length with hs | hs
  · have hu : c < u.ch.length := h.channels.length_eq ▸ hs
    rw [s.channel_eq_getElem c hs, u.channel_eq_getElem c hu]
    exact h.channels.get hs hu
  · have hu : u.ch.length ≤ c := h.channels.length_eq ▸ hs
    rw [State.channel, State.channel, List.getD_eq_default _ _ hs, List.getD_eq_default _ _ hu]
    exact .refl _

/-- Once seeded, all of GEN is specified. -/
theorem SameSpecified.gen_eq (hs : s.gen.seeded = true) : s.gen = u.gen := by
  have hmt := h.mt hs
  have hidx := h.idx
  have hseeded := h.seeded
  cases hsg : s.gen
  cases hug : u.gen
  simp_all

theorem SameSpecified.ready {i : Instr} (hr : Ready i s) : Ready i u := by
  obtain ⟨hh, hw, hs⟩ := hr
  exact ⟨h.halted ▸ hh, h.params ▸ hw, h.seeded ▸ hs⟩

theorem SameSpecified.withInputs (is : List Input) : SameSpecified (s.withInputs is) (u.withInputs is) :=
  { h with inputs := rfl }

theorem SameSpecified.answer (r : Response) : SameSpecified (s.answer r) (u.answer r) :=
  { h with responses := congrArg (· ++ [r]) h.responses }

theorem SameSpecified.withGen (g : Gen) : SameSpecified (s.withGen g) (u.withGen g) :=
  { h with idx := rfl, seeded := rfl, mt := fun _ => rfl }

theorem SameSpecified.withHalted : SameSpecified s.withHalted u.withHalted :=
  { h with halted := rfl }

theorem SameSpecified.withChannel {k l : Channel} (hkl : k.SameBytes l) (c : Nat) :
    SameSpecified (s.withChannel c k) (u.withChannel c l) :=
  { h with channels := sameBytes_set h.channels hkl c }

theorem SameSpecified.applyReset : SameSpecified s.applyReset u.applyReset where
  idx := rfl
  seeded := rfl
  mt := nofun
  halted := rfl
  channels := by
    rw [State.applyReset_ch, State.applyReset_ch, h.channels.length_eq]
    exact List.forall₂_same.2 fun k _ => .refl k
  hasRange := h.hasRange
  hasFill := h.hasFill
  inputs := h.inputs
  responses := h.responses

end

/-! ## Related outcomes -/

/-- Outcomes of one kind, with related next states or the same reason to stop. -/
inductive SameOutcome : Result → Result → Prop where
  | next {t v : State} (h : SameSpecified t v) : SameOutcome (.next t) (.next v)
  | fault (f : Fault) : SameOutcome (.fault f) (.fault f)
  | refused (q : Refusal) : SameOutcome (.refused q) (.refused q)

section
variable {s u : State} (h : SameSpecified s u)
include h

theorem respondInRange_same (hs : s.gen.seeded = true) (base max : Word) :
    SameOutcome (respondInRange base max s) (respondInRange base max u) := by
  unfold respondInRange
  rw [← h.gen_eq hs]
  split
  · exact .next ((h.withGen _).answer _)
  · exact .fault _

theorem execOpen_same {i : Instr} (hr : Ready i s) : SameOutcome (execOpen i s) (execOpen i u) := by
  cases i with
  | seed seed => exact .next ((h.withGen _).answer _)
  | next64 =>
    rw [execOpen, execOpen, ← h.gen_eq (hr.seeded rfl)]
    exact .next ((h.withGen _).answer _)
  | range max =>
    simp only [execOpen]
    split
    · exact .next (h.answer _)
    · exact respondInRange_same h (hr.seeded rfl) 0 max
  | range2 lo hi =>
    simp only [execOpen]
    split
    · exact .next (h.answer _)
    · exact respondInRange_same h (hr.seeded rfl) lo (hi - lo)
  | dscfg c wb =>
    simp only [execOpen]
    split
    · exact .next (h.answer _)
    · exact .next ((h.withChannel (.configured _ _ _) _).answer _)
  | dsnext c =>
    have hk := h.channel c.toNat
    have hw : (s.channel c.toNat).w = (u.channel c.toNat).w := hk.1
    simp only [execOpen, ← h.gen_eq (hr.seeded rfl), ← hk.takeWindow_eq, ← hw]
    split
    · exact .next (h.answer _)
    · exact .next (((h.withChannel (.refl _) _).withGen _).answer _)
  | fill wb n =>
    simp only [execOpen, ← h.gen_eq (hr.seeded rfl)]
    split
    · exact .next (h.withHalted.answer _)
    · exact .next ((h.withGen _).answer _)

theorem exec_same (i : Instr) : SameOutcome (exec i s) (exec i u) := by
  rcases exec_cases i s with ⟨hh, e⟩ | ⟨hh, hw, e⟩ | ⟨hh, hw, hd, hs, e⟩ | ⟨hr, e⟩ <;> rw [e]
  · rw [exec_of_halted i u (h.halted ▸ hh)]
    exact .next (h.answer _)
  · rw [exec_of_illegal i u (h.halted ▸ hh) (h.params ▸ hw)]
    exact .next (h.answer _)
  · rw [exec_of_unseeded i u (h.halted ▸ hh) (h.params ▸ hw) hd (h.seeded ▸ hs)]
    exact .next (h.answer _)
  · rw [exec_of_ready i u (h.ready hr)]
    exact execOpen_same h hr

theorem runInput_same (input : Input) : SameOutcome (runInput input s) (runInput input u) := by
  cases input with
  | reset => exact .next h.applyReset
  | command c =>
    simp only [runInput, runCommand, ← h.params, ← h.halted]
    split
    · exact exec_same h _
    · split <;> exact .next (h.answer _)

theorem step_same : SameOutcome (step s) (step u) := by
  simp only [step, takeInput, ← h.inputs]
  cases s.inputs with
  | nil => exact .next h
  | cons input rest => exact runInput_same (h.withInputs rest) input

end

/-- Settles O58: related states step to related outcomes. -/
theorem unspecifiedContentsAreNeverRead : Obligations.UnspecifiedContentsAreNeverRead := by
  intro s u h
  have hstep := step_same h
  revert hstep
  generalize step s = a
  generalize step u = b
  rintro (hnext | f | q)
  · exact hnext
  · rfl
  · rfl

end Sys2Proof.Machine
end

section
/-! PROOFS. How a host uses the block: the legal widths, the typed views of a beat, and SR's public calls. -/

namespace Sys2Proof.Machine

/-! ## Widths -/

/-- Settles O35: the first clause is the width check; the divisors of 8 below 16 are counted out. -/
theorem legalWidthsDivideEight : Obligations.LegalWidthsDivideEight := by
  intro wb
  have hdivisors : wb.toNat ≠ 0 ∧ 8 % wb.toNat = 0 ↔
      wb.toNat = 1 ∨ wb.toNat = 2 ∨ wb.toNat = 4 ∨ wb.toNat = 8 := by
    revert wb; decide
  have hlegal : (∃ w, widthOfField wb = some w) ↔ wb.toNat ≠ 0 ∧ 8 % wb.toNat = 0 := by
    rw [← Option.ne_none_iff_exists', ne_eq, widthOfField_none_iff, not_or, not_not]
  exact ⟨hlegal, hlegal.trans hdivisors, fun w hw => (widthOfField_some wb w hw).1⟩

/-! ## Views -/

/-- The unsigned view of a width, as the low bits of the beat. -/
theorem unsigned_view (w : Width) (v : Word) :
    View.unsigned (unsignedValue w v) = .unsigned (v.setWidth (8 * w.bytes)).toNat :=
  congrArg View.unsigned (unsignedValue_eq w v)

/-- The signed view of a width, as the low bits of the beat in two's complement. -/
theorem signed_view {w : Width} (hw : w ≠ .notConfigured) (v : Word) :
    View.signed (signedValue w v) = .signed (v.setWidth (8 * w.bytes)).toInt :=
  congrArg View.signed (signedValue_eq w v hw)

/-- Settles O59: the integer views read the low bits, which at 64 bits are the beat; the fields of the float views
are put together again. -/
theorem viewsChangeNoBit : Obligations.ViewsChangeNoBit := by
  refine ⟨fun v => ?_, rfl⟩
  have hbeat : v.setWidth (8 * Width.eight.bytes) = v := BitVec.setWidth_eq v
  have hu64 := unsigned_view .eight v
  have hi64 := signed_view (w := .eight) nofun v
  rw [hbeat] at hu64 hi64
  exact ⟨unsigned_view .one v, unsigned_view .two v, unsigned_view .four v, hu64, signed_view (w := .one) nofun v,
    signed_view (w := .two) nofun v, signed_view (w := .four) nofun v, hi64,
    ⟨_, rfl, float32Bits_append v⟩, _, rfl, float64Bits_append v⟩

/-! ## Public calls -/

/-- The types SR serves from a narrow channel, and the bytes of each (R85). -/
def narrowTypes : List (ViewType × Nat) :=
  [(.u8, 1), (.i8, 1), (.u16, 2), (.i16, 2), (.u32, 4), (.i32, 4), (.f32, 4)]

/-- The types SR serves with `NEXT64`, and the bytes of each (R85). -/
def wideTypes : List (ViewType × Nat) := [(.u64, 8), (.i64, 8), (.f64, 8)]

theorem exists_narrow_width : ∀ r ∈ narrowTypes, ∃ w, r.1.width = some w ∧ w.narrow = true ∧ w.bytes = r.2 := by
  simp [narrowTypes, ViewType.width, Width.narrow, Width.bytes]

theorem width_of_wide : ∀ r ∈ wideTypes, r.1.width = some .eight ∧ Width.eight.bytes = r.2 := by
  decide

theorem exists_width : ∀ r ∈ narrowTypes ++ wideTypes, ∃ w, r.1.width = some w ∧ w.bytes = r.2 := by
  intro r hr
  rcases List.mem_append.1 hr with hr | hr
  · obtain ⟨w, hw, -, hb⟩ := exists_narrow_width r hr
    exact ⟨w, hw, hb⟩
  · exact ⟨.eight, width_of_wide r hr⟩

theorem Width.narrow_iff (w : Width) : w.narrow = true ↔ w.bytes ∈ [1, 2, 4] := by
  cases w <;> decide

theorem expand_next_wide {t : ViewType} (h : t.width = some .eight) (c : BitVec 8) (s : State) :
    Api.expand (.next t c) s = some .next64 := if_pos h

theorem expand_next_bool (c : BitVec 8) (s : State) :
    Api.expand (.next .bool c) s = if (s.channel c.toNat).w.bytes ∈ [1, 2, 4] then some (.dsnext c) else none := by
  simp only [← Width.narrow_iff]
  simp [Api.expand, ViewType.fits, ViewType.width]

theorem expand_fillArray {t : ViewType} {w : Width} (h : t.width = some w) (n : Word) (s : State) :
    Api.expand (.fillArray t n) s = some (.fill w.field n) := by
  simp [Api.expand, h]

/-- The `DSCFG` of `Api.setup` gives the channel the width it names. -/
theorem exists_configured {c : BitVec 8} {s : State} {w : Width} (hh : s.halted = false) (hc : c.toNat < s.ch.length)
    (hw : w ≠ .notConfigured) : ∃ t, exec (.dscfg c w.field) s = .next t ∧ (t.channel c.toNat).w = w := by
  refine ⟨_, exec_dscfg_of_legal hh hc (widthOfField_field w hw), ?_⟩
  rw [State.answer_channel, s.withChannel_channel_same _ _ hc, Channel.configured_w]

/-- Settles O60: each row of R85 by the lemma on its call. -/
theorem publicCallsAsCommands : Obligations.PublicCallsAsCommands := by
  refine ⟨fun r hr c s => expand_next_wide (width_of_wide r hr).1 c s, fun r hr c s => ?_, expand_next_bool,
    fun _ _ => rfl, fun _ _ _ => rfl, fun r hr n s => ?_, fun _ _ => rfl, fun _ => rfl,
    fun _ _ _ _ _ _ _ => ⟨rfl, rfl, rfl, rfl⟩⟩
  · obtain ⟨w, hw, hnarrow, hbytes⟩ := exists_narrow_width r hr
    have hexpand := fun s => expand_next_narrow r.1 w c s hw hnarrow
    rw [hexpand, ← hbytes, ne_eq, Width.bytes_inj]
    refine ⟨by simp, by simp, setup_next_narrow r.1 w c hw hnarrow, fun hh hc => ?_⟩
    obtain ⟨t, ht, htw⟩ := exists_configured hh hc (w.ne_of_narrow hnarrow).2
    exact ⟨t, ht, (hexpand t).trans (if_pos htw)⟩
  · obtain ⟨w, hw, hbytes⟩ := exists_width r hr
    rw [← hbytes]
    exact expand_fillArray hw n s

end Sys2Proof.Machine
end
